-- ==== Sys2Proof/Word.lean ====
section
/-! DEFINITION. The two widths of the hardware and the spec's width changes (R8): an 8-bit `Byte`, a 16-bit
`Word`, zero extension and truncation. Address arithmetic that may pass the top of memory is done in `Nat`
(R13), so no arithmetic on `Word` stands here. -/

namespace Sys2Proof

/-- `UInt8` of the spec: an 8-bit unsigned value (R8). -/
abbrev Byte := BitVec 8

/-- `UInt16` of the spec: a 16-bit unsigned value (R8). -/
abbrev Word := BitVec 16

/-- `zext_16`: widens an 8-bit value to 16 bits with zeros (R8). -/
def zext16 (b : Byte) : Word := b.setWidth 16

/-- `trunc_8(n)` is `n mod 256` (R8). -/
def trunc8 (n : Nat) : Byte := BitVec.ofNat 8 n

/-- `trunc_16(n)` is `n mod 65536` (R8). -/
def trunc16 (n : Nat) : Word := BitVec.ofNat 16 n

end Sys2Proof
end

