-- ==== Sys2Proof/Config.lean ====
section
/-! DEFINITION. The implementation parameters of R6 that are not widths: what an address past the top of memory
does (`PC_OVERFLOW`), the entry point (`ENTRY_PC`) and the size of memory (`MEM_SIZE`). They are constants, not
state (R16). The spec leaves no value of an instruction open, so there is no free value here. -/

namespace Sys2Proof

/-- `PC_OVERFLOW` (R6): the two values the spec names. `fault` is the default of R6, R76 and R78; `wrap` is the
named alternative, which `Machine.cycle` models beside it (DEDUCED, log 2). -/
inductive PcOverflow where
  /-- Running past 0xFFFF raises AddressRangeError (R78). -/
  | fault
  /-- Running past 0xFFFF goes on at the truncated address (R67, R78). -/
  | wrap
  deriving DecidableEq, Repr

/-- `PC_OVERFLOW` of the machine modelled by `step`: the spec's default (R6). DEDUCED, log 2: safe, since
the machine stops where a wrapping chip would go on. -/
def Config.pcOverflow : PcOverflow := .fault

/-- `ENTRY_PC` (R6, R115). -/
def Config.entryPc : Word := 0x0100#16

/-- `MEM_SIZE` (R6, R38). -/
def Config.memSize : Nat := 65536

/-- The highest address, 0xFFFF (R38). -/
def Config.topAddr : Nat := 0xFFFF

end Sys2Proof
end

