-- ==== Sys2Proof/Syntax.lean ====
section
/-! DEFINITION. The instructions: one constructor per row of spec/opcode_table.json, in the table's order (R62).
Every register operand is implied by the opcode (R59), so the only operand is the 16-bit immediate of the two
`OP_IMM16` instructions (R58). -/

namespace Sys2Proof

/-- A decoded instruction of the closed table of four (R60, R62). -/
inductive Instr where
  /-- NOP, opcode 0x00 (R86). -/
  | nop
  /-- JP a16, opcode 0xC3: `target` is imm16 (R87). -/
  | jpA16 (target : Word)
  /-- XOR A, opcode 0xAF (R91). -/
  | xorA
  /-- LD HL,d16, opcode 0x21: `v` is imm16 (R93). -/
  | ldHlD16 (v : Word)
  deriving DecidableEq, Repr

end Sys2Proof
end

