-- ==== Sys2Proof/WellFormed.lean ====
section
/-! DEFINITION. Checks on instructions. An `Instr` has only 16-bit operands and every 16-bit value is legal in
both places (R58, R87, R93), so no ill-formed term of `Instr` exists (DEDUCED, log 9: safe). What CAN be ill formed is a byte
sequence offered as an instruction (R55, R56, R57) and an instruction's place in memory (R76). -/

namespace Sys2Proof

/-- Every instruction of the type is well formed: the bound on an operand is its type's (R40, R58). Log 9. -/
def Instr.wellFormed : Instr → Bool
  | .nop => true
  | .jpA16 _ => true
  | .xorA => true
  | .ldHlD16 _ => true

/-- The operand width `w` in bytes (R57, R62). -/
def Instr.width : Instr → Nat
  | .nop => 0
  | .jpA16 _ => 2
  | .xorA => 0
  | .ldHlD16 _ => 2

/-- An instruction is `1 + w` bytes long (R57). -/
def Instr.length (i : Instr) : Nat := 1 + i.width

/-- The instruction's opcode and operand bytes all lie at addresses up to 0xFFFF (R76). -/
def Instr.fitsAt (i : Instr) (pc : Word) : Bool :=
  decide (pc.toNat + i.width ≤ Config.topAddr)

/-- The byte sequence is exactly one instruction: the in-scope column of R56's table of formats. -/
def wellFormedBytes : List Byte → Bool
  | [op] => op == 0x00#8 || op == 0xAF#8
  | [op, _, _] => op == 0xC3#8 || op == 0x21#8
  | _ => false

end Sys2Proof
end

