-- ==== Sys2Proof/Decode.lean ====
section
/-! DEFINITION. The instruction_decoder: the descriptor of a table row (R64), the closed opcode table (R60, R62,
R63), the operand check (R76), operand assembly (R58), decoding of an opcode with its two candidate bytes (R14,
R61), decoding of a byte list, the encoder (R56, R68), and the host's `decodeTableWord`. Decoding is total and
refuses by name. -/

namespace Sys2Proof

/-- The encoding formats of R56. `opImm8` is defined there and used by no instruction in scope. -/
inductive Format where
  | op
  | opImm8
  | opImm16
  deriving DecidableEq, Repr

/-- The mnemonic of a row (R62; the glossary's Descriptor "holds the mnemonic"). -/
inductive Mnemonic where
  | nop
  | jpA16
  | xorA
  | ldHlD16
  deriving DecidableEq, Repr

/-- The register effect of a row: `none | xorA | loadHL` (R64). -/
inductive Effect where
  | none
  | xorA
  | loadHL
  deriving DecidableEq, Repr

/-- How a row moves the PC: `PC + 1 + width`, or `imm16` (R64). -/
inductive PcRule where
  | relative
  | absoluteImm16
  deriving DecidableEq, Repr

/-- Four flag bits in the order Z, N, H, C: a write mask or the values to write (R14, R24). -/
structure FlagBits where
  z : Bool
  n : Bool
  h : Bool
  c : Bool
  deriving DecidableEq, Repr

/-- The decoder's output for a supported opcode (R64). -/
structure Descriptor where
  mnemonic : Mnemonic
  opcode   : Byte
  width    : Fin 3
  effect   : Effect
  flagMask : FlagBits
  flagVal  : FlagBits
  pcRule   : PcRule
  deriving DecidableEq, Repr

/-- No flag: the mask of a row whose Flags column says "unchanged" (R25). -/
def noFlags : FlagBits := ⟨false, false, false, false⟩

/-- All four flags (R89). -/
def allFlags : FlagBits := ⟨true, true, true, true⟩

/-- Row 0x00 of R62. -/
def descNop : Descriptor :=
  { mnemonic := .nop, opcode := 0x00#8, width := 0, effect := .none,
    flagMask := noFlags, flagVal := noFlags, pcRule := .relative }

/-- Row 0xC3 of R62. -/
def descJpA16 : Descriptor :=
  { mnemonic := .jpA16, opcode := 0xC3#8, width := 2, effect := .none,
    flagMask := noFlags, flagVal := noFlags, pcRule := .absoluteImm16 }

/-- Row 0xAF of R62: Z = 1, N = H = C = 0. -/
def descXorA : Descriptor :=
  { mnemonic := .xorA, opcode := 0xAF#8, width := 0, effect := .xorA,
    flagMask := allFlags, flagVal := ⟨true, false, false, false⟩, pcRule := .relative }

/-- Row 0x21 of R62. -/
def descLdHlD16 : Descriptor :=
  { mnemonic := .ldHlD16, opcode := 0x21#8, width := 2, effect := .loadHL,
    flagMask := noFlags, flagVal := noFlags, pcRule := .relative }

/-- The closed opcode table: all 8 bits compared, four rows, every other byte unsupported (R60, R62, R63, R64). -/
def lookup (op : Byte) : Option Descriptor :=
  match op with
  | 0x00#8 => some descNop
  | 0xC3#8 => some descJpA16
  | 0xAF#8 => some descXorA
  | 0x21#8 => some descLdHlD16
  | _ => none

/-- The format of a row, fixed by its operand width (R56, R57). -/
def Descriptor.format (d : Descriptor) : Format :=
  match d.width with
  | 0 => .op
  | 1 => .opImm8
  | 2 => .opImm16

/-- The row an instruction was decoded from (R62). -/
def Instr.descriptor : Instr → Descriptor
  | .nop => descNop
  | .jpA16 _ => descJpA16
  | .xorA => descXorA
  | .ldHlD16 _ => descLdHlD16

/-- `imm16 = zext_16(b1) | (zext_16(b2) << 8)`: little-endian, no sign extension (R58). -/
def imm16 (b1 b2 : Byte) : Word := zext16 b1 ||| (zext16 b2 <<< 8)

/-- The operand check of R76: the offset from PC of the first operand byte that a row of width `w` consumes and
that is absent, lower address first (R67, R103). -/
def absentOperand (w : Nat) (b1 b2 : Option Byte) : Option Nat :=
  if 1 ≤ w ∧ b1 = none then some 1
  else if w = 2 ∧ b2 = none then some 2
  else none

/-- Why an opcode with its candidate bytes is no instruction. -/
inductive DecodeError where
  /-- The opcode is in no row of the table (R63, R75). -/
  | unsupportedOpcode (op : Byte)
  /-- The row of `op` consumes the operand byte at this offset from the opcode, and it is absent (R67, R76). -/
  | absentOperand (op : Byte) (offset : Nat)
  deriving DecidableEq, Repr

/-- The instruction of a row with its immediate: the `OP` rows consume none (R62). -/
def instrOf (m : Mnemonic) (imm : Word) : Instr :=
  match m with
  | .nop => .nop
  | .jpA16 => .jpA16 imm
  | .xorA => .xorA
  | .ldHlD16 => .ldHlD16 imm

/-- Decode an opcode with its candidate bytes, each present or absent (R14, R61, R67): table lookup first (R75),
then the operand check (R76). A width-2 row reaches `imm16` only with both bytes present; the placeholder for an
absent one is consumed by no row (U8; DEDUCED, log 8: safe). -/
def decode (op : Byte) (b1 b2 : Option Byte) : Except DecodeError Instr :=
  match lookup op with
  | none => .error (.unsupportedOpcode op)
  | some d =>
    match absentOperand d.width b1 b2 with
    | some k => .error (.absentOperand op k)
    | none => .ok (instrOf d.mnemonic (imm16 (b1.getD 0) (b2.getD 0)))

/-- Why a byte list begins with no instruction. -/
inductive BytesError where
  /-- The list is empty: the spec's fetch always has an opcode byte (R49). DESIGN CHOICE, log 10: safe. -/
  | noOpcode
  /-- The opcode and the bytes after it decode to no instruction. -/
  | notDecoded (e : DecodeError)
  deriving DecidableEq, Repr

/-- Decode the instruction that a byte list begins with, and give the bytes after it (R55, R57). -/
def decodeBytes : List Byte → Except BytesError (Instr × List Byte)
  | [] => .error .noOpcode
  | op :: rest =>
    match decode op rest[0]? rest[1]? with
    | .ok i => .ok (i, rest.drop i.width)
    | .error e => .error (.notDecoded e)

/-- Bits 7..0 of a 16-bit value (R7, R22). -/
def lowByte (v : Word) : Byte := v.extractLsb' 0 8

/-- Bits 15..8 of a 16-bit value (R7, R22). -/
def highByte (v : Word) : Byte := v.extractLsb' 8 8

/-- The encoder: the opcode byte, then the immediate low byte first (R56, R68). -/
def encode : Instr → List Byte
  | .nop => [0x00#8]
  | .jpA16 target => [0xC3#8, lowByte target, highByte target]
  | .xorA => [0xAF#8]
  | .ldHlD16 v => [0x21#8, lowByte v, highByte v]

/-- Byte `k` of an instruction whose bits are `w`, of which the table gives `nbits` (the host's numbering: bit 0
is the least significant bit of the first byte); the bits above `nbits` are 0. -/
def tableByte (nbits w k : Nat) : Byte := trunc8 (w % 2 ^ nbits / 256 ^ k)

/-- The host's question: the instruction this decoder reads from an instruction whose bits are `w`. -/
def decodeTableWord (nbits w : Nat) : Option Instr :=
  match decode (tableByte nbits w 0) (some (tableByte nbits w 1)) (some (tableByte nbits w 2)) with
  | .ok i => some i
  | .error _ => none

end Sys2Proof
end

