-- ==== Sys2Proof/Machine/State.lean ====
section
/-! DEFINITION. The state of the block between cycles (R16, R35), the error record (R32), the FSM state (R31), the
reasons a step can stop, and the state after reset (R36). Plain data only. -/

namespace Sys2Proof.Machine

/-- The memory of R38 as plain data (DESIGN CHOICE of the representation, log 17: safe): (address, byte) pairs, addresses strictly rising, an unlisted address reading
as 0x00 (`Memory.unlisted`). `Memory.wf` says the form holds. -/
abbrev Memory := List Host.Cell

/-- The error record (R32). A cycle that raises one of them ends in a NEXT state that holds it (R100). -/
inductive CoreError where
  /-- `UnsupportedOpcodeError { opcode, pc }` (R96). -/
  | unsupportedOpcode (opcode : Byte) (pc : Word)
  /-- `AddressRangeError { opcode, pc, addr }` (R97): `addr` is the first address past 0xFFFF that was needed. -/
  | addressRange (opcode : Byte) (pc : Word) (addr : Nat)
  deriving DecidableEq, Repr

/-- The FSM's state register with its error record (R31, R32, R35). -/
inductive Fsm where
  /-- RUNNING: the error record is empty. -/
  | running
  /-- HALTED-ON-ERROR(err): terminal (R72). -/
  | halted (err : CoreError)
  deriving DecidableEq, Repr

/-- `CoreState` of R35. The flags are `zf nf hf cf`, told apart from the registers `h` and `c` (R9). -/
structure State where
  a : Byte
  b : Byte
  c : Byte
  d : Byte
  e : Byte
  h : Byte
  l : Byte
  sp : Word
  pc : Word
  zf : Bool
  nf : Bool
  hf : Bool
  cf : Bool
  mem : Memory
  fsm : Fsm
  deriving DecidableEq, Repr

/-- Why a step has no next state. -/
inductive Fault where
  /-- Raised by `step` alone, on a state that is already HALTED-ON-ERROR: R72 gives such a state no successor.
  Safe: the spec's machine goes no further either (DEDUCED, log 1). -/
  | haltedOnError (err : CoreError)
  deriving DecidableEq, Repr

/-- Why an instruction has no meaning. -/
inductive Refusal where
  /-- Raised by an arm of `exec` whose instruction has no meaning yet; no arm does so now. Safe: nothing is proved
  of such an instruction. -/
  | notModelled (mnemonic : String)
  deriving DecidableEq, Repr

/-- The state immediately after reset (R36, R114), with IMAGE_MEMORY the empty image: every byte 0x00 by R116's zero
fill (DESIGN CHOICE of the image, log 3: unsafe). `boot` gives the state after reset for any image. -/
def State.reset : State :=
  { a := 0x00#8, b := 0x00#8, c := 0x00#8, d := 0x00#8, e := 0x00#8, h := 0x00#8, l := 0x00#8,
    sp := 0x0000#16, pc := Config.entryPc,
    zf := false, nf := false, hf := false, cf := false,
    mem := [], fsm := .running }

end Sys2Proof.Machine
end

