-- ==== Sys2Proof/Machine/Flags.lean ====
section
/-! DEFINITION. The flag_register (R23 to R26) and the alu with its flag generation (R88 to R90). -/

namespace Sys2Proof.Machine

/-- `getFlags()` (R14, R23). -/
def State.getFlags (s : State) : FlagBits := ⟨s.zf, s.nf, s.hf, s.cf⟩

/-- One flag under a write mask bit: written where the bit is 1, kept otherwise (R24). -/
def maskedFlag (mask new old : Bool) : Bool := if mask then new else old

/-- `setFlags(mask, val)`: flag by flag, never a whole overwrite (R24, D25). -/
def State.setFlags (s : State) (mask val : FlagBits) : State :=
  { s with
    zf := maskedFlag mask.z val.z s.zf
    nf := maskedFlag mask.n val.n s.nf
    hf := maskedFlag mask.h val.h s.hf
    cf := maskedFlag mask.c val.c s.cf }

/-- A flag as a byte, 0 or 1 (R8). -/
def flagByte (f : Bool) : Byte := if f then 1#8 else 0#8

/-- `getF() = Z<<7 | N<<6 | H<<5 | C<<4`, bits 3..0 reading 0 (R26). PRESUMED: the spec itself takes the layout from
general knowledge of the CPU (D3), log 4: unsafe for an extension that shows F as a byte. -/
def State.getF (s : State) : Byte :=
  (flagByte s.zf <<< 7) ||| (flagByte s.nf <<< 6) ||| (flagByte s.hf <<< 5) ||| (flagByte s.cf <<< 4)

/-- The flags that a byte written through the AF view sets; bits 3..0 are dropped (R21). -/
def flagsOfByte (f : Byte) : FlagBits := ⟨f.getLsbD 7, f.getLsbD 6, f.getLsbD 5, f.getLsbD 4⟩

/-- The ALU's operations: one (R89). -/
inductive AluOp where
  | xor
  deriving DecidableEq, Repr

/-- The ALU's result: the value, the flags it names and their new values (R88). -/
structure AluResult where
  r    : Byte
  mask : FlagBits
  val  : FlagBits
  deriving DecidableEq, Repr

/-- `alu(XOR, a, b)` (R89). The case `a ≠ b` is the spec's own choice (D19), which no instruction reaches (DEDUCED,
log 5: unsafe for an extension that reaches it). -/
def alu (op : AluOp) (a b : Byte) : AluResult :=
  match op with
  | .xor =>
    let r := a ^^^ b
    { r := r, mask := allFlags, val := ⟨r == 0x00#8, false, false, false⟩ }

end Sys2Proof.Machine
end

