-- ==== Sys2Proof/Machine/Ops.lean ====
section
/-! DEFINITION. The named operations over memory (R38 to R44) and over the register file (R18 to R22, R27, R28), the
entry into HALTED-ON-ERROR (R100: the one operation that takes an error), and the end of a cycle (R78, R79). There
is no return from an error (R104); what starts a new run is reset, in Machine/Boot.lean. -/

namespace Sys2Proof.Machine

/-- What an address that memory does not list reads as: 0x00, the zero fill of R116. -/
def Memory.unlisted : Byte := 0x00#8

/-- The canonical form from address `lo` upwards: addresses strictly rising, inside the space, no listed byte equal
to what an unlisted address reads as. -/
def Memory.wfFrom : Nat → Memory → Bool
  | _, [] => true
  | lo, (a, v) :: m =>
    decide (lo ≤ a) && decide (a < Config.memSize) && decide (v ≠ Memory.unlisted) && Memory.wfFrom (a + 1) m

/-- Memory is in its canonical form, so that equal memories are equal data. -/
def Memory.wf (m : Memory) : Bool := Memory.wfFrom 0 m

/-- The byte at a numeric address. -/
def Memory.read : Memory → Nat → Byte
  | [], _ => Memory.unlisted
  | (a, v) :: m, x => if x = a then v else Memory.read m x

/-- Write a byte at a numeric address, keeping the canonical form. -/
def Memory.write : Memory → Nat → Byte → Memory
  | [], x, v => if v = Memory.unlisted then [] else [(x, v)]
  | (a, w) :: m, x, v =>
    if x < a then (if v = Memory.unlisted then (a, w) :: m else (x, v) :: (a, w) :: m)
    else if x = a then (if v = Memory.unlisted then m else (x, v) :: m)
    else (a, w) :: Memory.write m x v

/-- `load(addr)`: `mem[addr]`, no side effect, cannot fail (R39, R41). DEDUCED, log 13: unsafe for a console
with devices. -/
def Memory.load (m : Memory) (addr : Word) : Byte := m.read addr.toNat

/-- `store(addr, v)`: sets one byte, cannot fail (R42). No instruction in scope calls it (R94). -/
def Memory.store (m : Memory) (addr : Word) (v : Byte) : Memory := m.write addr.toNat v

/-- `loadWord(addr)`, low byte first, defined for `addr ≤ 0xFFFE` (R43); at 0xFFFF the unit does not define it and the
FSM never calls it (R44): `none` (DESIGN CHOICE, log 7: safe). -/
def Memory.loadWord (m : Memory) (addr : Word) : Option Word :=
  if addr.toNat ≤ 0xFFFE then
    some (imm16 (m.load addr) (m.load (trunc16 (addr.toNat + 1))))
  else none

/-- `store` on the whole state. -/
def State.store (s : State) (addr : Word) (v : Byte) : State := { s with mem := s.mem.store addr v }

/-- The seven 8-bit data registers (R18). -/
inductive Reg8 where
  | A | B | C | D | E | H | L
  deriving DecidableEq, Repr

/-- The 16-bit pair views (R21). BC, DE and AF are the spec's choice (D4), used by no instruction in scope
(PRESUMED, log 4: unsafe for an extension). -/
inductive Pair where
  | BC | DE | HL | AF
  deriving DecidableEq, Repr

/-- `get8(r)` (R14, R19). -/
def State.get8 (s : State) : Reg8 → Byte
  | .A => s.a
  | .B => s.b
  | .C => s.c
  | .D => s.d
  | .E => s.e
  | .H => s.h
  | .L => s.l

/-- `set8(r, v)` (R14, R19). A write of a number `n` is `set8 r (trunc8 n)` (R20). -/
def State.set8 (s : State) (r : Reg8) (v : Byte) : State :=
  match r with
  | .A => { s with a := v }
  | .B => { s with b := v }
  | .C => { s with c := v }
  | .D => { s with d := v }
  | .E => { s with e := v }
  | .H => { s with h := v }
  | .L => { s with l := v }

/-- `(zext_16(high) << 8) | zext_16(low)` (R21). -/
def pairOf (high low : Byte) : Word := (zext16 high <<< 8) ||| zext16 low

/-- `get16(p)`: a view, with no storage of its own (R21). -/
def State.get16 (s : State) : Pair → Word
  | .BC => pairOf s.b s.c
  | .DE => pairOf s.d s.e
  | .HL => pairOf s.h s.l
  | .AF => pairOf s.a s.getF

/-- `set16(p, v)`: splits `v` into the two halves; AF writes the flags and drops bits 3..0 (R21). -/
def State.set16 (s : State) (p : Pair) (v : Word) : State :=
  match p with
  | .BC => (s.set8 .B (highByte v)).set8 .C (lowByte v)
  | .DE => (s.set8 .D (highByte v)).set8 .E (lowByte v)
  | .HL => (s.set8 .H (highByte v)).set8 .L (lowByte v)
  | .AF => (s.set8 .A (highByte v)).setFlags allFlags (flagsOfByte (lowByte v))

/-- `getSP` (R27). -/
def State.getSP (s : State) : Word := s.sp

/-- `setSP(v)` (R27). No instruction in scope uses it. -/
def State.setSP (s : State) (v : Word) : State := { s with sp := v }

/-- `getPC` (R28). -/
def State.getPC (s : State) : Word := s.pc

/-- `setPC(v)` (R28). -/
def State.setPC (s : State) (v : Word) : State := { s with pc := v }

/-- `raise e`: the ONE way an error is taken. The FSM enters HALTED-ON-ERROR(e) and nothing else changes: no register,
flag or byte is written, PC keeps the faulting opcode's address, the record itself carries it (R11, R100, R102). -/
def State.raise (s : State) (e : CoreError) : State := { s with fsm := .halted e }

/-- The next PC of a row that advances by `1 + w`, or the first address past the top (R29, R78). The sum is in `Nat`
(R13) and PC wraps only under `PC_OVERFLOW = wrap`. -/
def nextPc (p : PcOverflow) (pc : Word) (w : Nat) : Except Nat Word :=
  if pc.toNat + 1 + w ≤ Config.topAddr then .ok (trunc16 (pc.toNat + 1 + w))
  else
    match p with
    | .fault => .error (pc.toNat + 1 + w)
    | .wrap => .ok (trunc16 (pc.toNat + 1 + w))

/-- `commitRel` of R80: `s` is the cycle's start state and `s'` the start state with the pending writes. All writes and
the advanced PC take effect together, or the error is raised on `s` and none does (R78, R79, R81). -/
def commitRelative (p : PcOverflow) (d : Descriptor) (s s' : State) : Host.Outcome State Fault Refusal :=
  match nextPc p s.pc d.width with
  | .ok next => .next (s'.setPC next)
  | .error n => .next (s.raise (.addressRange d.opcode s.pc n))

/-- The commit of a control transfer: PC is the target and the relative advance is not applied (R12, R29, R78). -/
def commitAbsolute (target : Word) (s' : State) : Host.Outcome State Fault Refusal :=
  .next (s'.setPC target)

end Sys2Proof.Machine
end

