-- ==== Sys2Proof/Machine/Operands.lean ====
section
/-! DEFINITION. The operand form of the hardware, the immediate after the opcode: the candidate bytes at PC+1 and PC+2
(R67) and the operand check on them (R76). -/

namespace Sys2Proof.Machine

/-- The candidate byte at `PC + k` (R67): absent past 0xFFFF, or read at the truncated address under
`PC_OVERFLOW = wrap`. The sum is in `Nat` (R13). -/
def candidate (p : PcOverflow) (s : State) (k : Nat) : Option Byte :=
  match p with
  | .fault => if s.pc.toNat + k ≤ Config.topAddr then some (s.mem.load (trunc16 (s.pc.toNat + k))) else none
  | .wrap => some (s.mem.load (trunc16 (s.pc.toNat + k)))

/-- Stage 3b (R76) around the rest of an instruction: if the row consumes an absent operand byte, AddressRangeError with
that byte's address and nothing committed; otherwise the rest. -/
def withOperands (p : PcOverflow) (d : Descriptor) (s : State) (rest : Host.Outcome State Fault Refusal) :
    Host.Outcome State Fault Refusal :=
  match absentOperand d.width (candidate p s 1) (candidate p s 2) with
  | some k => .next (s.raise (.addressRange d.opcode s.pc (s.pc.toNat + k)))
  | none => rest

end Sys2Proof.Machine
end

