-- ==== Sys2Proof/Machine/Control.lean ====
section
/-! DEFINITION. The meanings of the control instructions, NOP and JP a16 (R86, R87). -/

namespace Sys2Proof.Machine

/-- NOP (R86): no effect but the advance to `pc0 + 1`; AddressRangeError at 0xFFFF. -/
def execNop (s : State) : Host.Outcome State Fault Refusal :=
  commitRelative Config.pcOverflow descNop s s

/-- JP a16 (R87): `pc <- target`, no relative advance, no flag; AddressRangeError where an operand byte would lie past
the top. The fetch has raised that same error before it could form the instruction; the check stands here too so that
the meaning is R87's whole (DEDUCED, log 8: safe). -/
def execJpA16 (target : Word) (s : State) : Host.Outcome State Fault Refusal :=
  withOperands Config.pcOverflow descJpA16 s (commitAbsolute target s)

end Sys2Proof.Machine
end

