-- ==== Sys2Proof/Machine/Load.lean ====
section
/-! DEFINITION. The meaning of the load instruction, LD HL,d16 (R93). -/

namespace Sys2Proof.Machine

/-- LD HL,d16 (R93): `HL <- v` through the pair view, no flag, next PC `pc0 + 3`; AddressRangeError where an operand byte
(0xFFFE, 0xFFFF) or the next PC (0xFFFD) lies past the top, with H and L kept. -/
def execLdHlD16 (v : Word) (s : State) : Host.Outcome State Fault Refusal :=
  withOperands Config.pcOverflow descLdHlD16 s
    (commitRelative Config.pcOverflow descLdHlD16 s (s.set16 .HL v))

end Sys2Proof.Machine
end

