-- ==== Sys2Proof/Machine/Logic.lean ====
section
/-! DEFINITION. The meaning of the ALU's one instruction, XOR A (R91). -/

namespace Sys2Proof.Machine

/-- XOR A (R91): `(r, mask, val) = alu(XOR, A, A)`, `A <- r` and the masked flag write, both read from the start state
(R12); AddressRangeError at 0xFFFF, with A and the flags kept. -/
def execXorA (s : State) : Host.Outcome State Fault Refusal :=
  let res := alu .xor (s.get8 .A) (s.get8 .A)
  commitRelative Config.pcOverflow descXorA s ((s.set8 .A res.r).setFlags res.mask res.val)

end Sys2Proof.Machine
end

