-- ==== Sys2Proof/Machine/Dispatch.lean ====
section
/-! DEFINITION. One arm per instruction: stages 4 to 6 of the cycle (R77, R78, R79) for a decoded instruction. `exec` does not
look at the FSM state: only `step`, which does, calls it (DESIGN CHOICE, log 6: unsafe if read as a halted block's act). -/

namespace Sys2Proof.Machine

def exec (i : Instr) (s : State) : Host.Outcome State Fault Refusal :=
  match i with
  | .nop => Sys2Proof.Machine.execNop s
  | .jpA16 target => Sys2Proof.Machine.execJpA16 target s
  | .xorA => Sys2Proof.Machine.execXorA s
  | .ldHlD16 v => Sys2Proof.Machine.execLdHlD16 v s

end Sys2Proof.Machine
end

