-- ==== Sys2Proof/Machine/Fetch.lean ====
section
/-! DEFINITION. Stages 1 to 3b of the cycle (R73 to R76): snapshot, fetch and decode, with the errors they raise; and
the placing of an instruction's bytes where the next fetch reads them. -/

namespace Sys2Proof.Machine

/-- The error that a decoding failure at address `pc` raises (R75, R76), with the records of R96 and R97 (DEDUCED,
log 16: safe). An unsupported byte halts the block although the real CPU may run it (D5; DEDUCED, log 15: safe). -/
def errorOfDecode (pc : Word) : DecodeError → CoreError
  | .unsupportedOpcode op => .unsupportedOpcode op pc
  | .absentOperand op k => .addressRange op pc (pc.toNat + k)

/-- Snapshot PC, read the opcode and the candidates, decode (R73, R74, R75, R76). -/
def fetchDecode (s : State) : Except CoreError Instr :=
  match decode (s.mem.load s.pc) (candidate Config.pcOverflow s 1) (candidate Config.pcOverflow s 2) with
  | .ok i => .ok i
  | .error e => .error (errorOfDecode s.pc e)

/-- Store `b` at `PC + k` where that address exists. -/
def placeByte (s : State) (k : Nat) (b : Byte) : State :=
  if s.pc.toNat + k ≤ Config.topAddr then s.store (trunc16 (s.pc.toNat + k)) b else s

/-- The three bytes of an instruction whose bits are `w`, stored from PC upwards in the order fetch reads them (R45). -/
def placeWord (s : State) (nbits w : Nat) : State :=
  placeByte (placeByte (placeByte s 0 (tableByte nbits w 0)) 1 (tableByte nbits w 1)) 2 (tableByte nbits w 2)

end Sys2Proof.Machine
end

