-- ==== Sys2Proof/Machine/Step.lean ====
section
/-! DEFINITION. One step: one complete fetch-decode-execute cycle (R70, R80). -/

namespace Sys2Proof.Machine

/-- One cycle. HALTED-ON-ERROR has no successor (R72; DEDUCED, log 1: safe); in RUNNING a cycle runs the decoded instruction or ends in
HALTED-ON-ERROR, either way in a next state (R70, R71). -/
def step (s : State) : Host.Outcome State Fault Refusal :=
  match s.fsm with
  | .halted e => .fault (.haltedOnError e)
  | .running =>
    match fetchDecode s with
    | .ok i => exec i s
    | .error e => .next (s.raise e)

/-- `s` with an instruction's bytes stored where `step` fetches next (DESIGN CHOICE, log 3 and log 11: safe): memory at PC, PC+1, PC+2. -/
def State.withFetchWord (s : State) (nbits w : Nat) : State := placeWord s nbits w

end Sys2Proof.Machine
end

