-- ==== Sys2Proof/Machine/Boot.lean ====
section
/-! DEFINITION. What the host does to the block: it builds memory from a program image (R116), resets (R114), lets the FSM
step (R118) and reads the outputs (R14, R105). Nothing else (R15, R84). -/

namespace Sys2Proof.Machine

/-- The memory that holds `bytes` from address `base` upwards and 0x00 elsewhere, in its canonical form (R116). -/
def Memory.ofBytes : Nat → List Byte → Memory
  | _, [] => []
  | base, v :: bytes =>
    if v = Memory.unlisted then Memory.ofBytes (base + 1) bytes
    else (base, v) :: Memory.ofBytes (base + 1) bytes

/-- Why construction fails: the block never starts and there is no run (R98, R116, U5, U6; DESIGN CHOICE
of the names, log 18: safe). -/
inductive BootError where
  /-- ImageLoadError: the image could not be obtained (R98). -/
  | imageLoadError
  /-- The configuration error: the image is longer than memory (R116). -/
  | imageTooLong (length : Nat)
  deriving DecidableEq, Repr

/-- The creation of the CPU instance over memory `mem` (R36, R114): every register, flag and FSM field at its reset value,
memory as the host has loaded it. -/
def State.created (mem : Memory) : State := { State.reset with mem := mem }

/-- The order of boot (R118): obtain the image, build memory from it at address 0, reset (this first reset is the
creation itself, before any step). `none` is an image that could not be obtained. -/
def boot (image : Option (List Byte)) : Except BootError State :=
  match image with
  | none => .error .imageLoadError
  | some bytes =>
    if bytes.length ≤ Config.memSize then
      .ok (State.created (Memory.ofBytes 0 bytes))
    else .error (.imageTooLong bytes.length)

/-- The output `halted` (R14, R105). -/
def State.halted (s : State) : Bool :=
  match s.fsm with
  | .running => false
  | .halted _ => true

/-- The output `error`: empty in RUNNING (R14, R32, R105). -/
def State.error (s : State) : Option CoreError :=
  match s.fsm with
  | .running => none
  | .halted e => some e

/-- A run as the host drives it (R118): the block's state, and how many steps the FSM has taken since reset. The count is the
host's (R85, R109), no state of the block (DESIGN CHOICE of where it stands, log 12: safe). -/
structure Run where
  state : State
  steps : Nat
  deriving DecidableEq, Repr

/-- When reset can happen: before the first step or after a halt (R114). -/
def Run.mayReset (r : Run) : Bool := r.steps == 0 || r.state.halted

/-- The reset event (R114): the instance is created anew over the memory as it is and a new run begins; `none` in mid-run, where it
cannot happen (DESIGN CHOICE of the answer, log 12: safe). -/
def Run.resetEvent (r : Run) : Option Run := if r.mayReset then some ⟨State.created r.state.mem, 0⟩ else none

/-- One step of a run (R70, R118). -/
def Run.step (r : Run) : Host.Outcome Run Fault Refusal :=
  match Machine.step r.state with
  | .next t => .next ⟨t, r.steps + 1⟩
  | .fault e => .fault e
  | .refused e => .refused e

/-- `n` steps of a run: between reset and the halt the host does nothing else (R84, R118). -/
def Run.advance : Nat → Run → Host.Outcome Run Fault Refusal
  | 0, r => .next r
  | n + 1, r =>
    match r.step with
    | .next u => Run.advance n u
    | .fault e => .fault e
    | .refused e => .refused e

end Sys2Proof.Machine
end

