-- ==== Sys2Proof/Machine/Stages.lean ====
section
/-! DEFINITION. The fetch_decode_execute_fsm stage by stage (R72 to R79), driven by the row's descriptor and for BOTH
values of `PC_OVERFLOW`; and a bounded run of it (R85). `step` is the instruction-by-instruction form of R80 at the
default; an obligation says that the two agree, and the alternative `wrap` (R67, R76, R78) is modelled here alone
(DEDUCED, log 2: safe). -/

namespace Sys2Proof.Machine

/-- Stage 4: the pending writes of a row, from the cycle's start state (R77): its effect and its masked flag write. -/
def applyEffect (d : Descriptor) (imm : Word) (s : State) : State :=
  let s' :=
    match d.effect with
    | .none => s
    | .xorA => s.set8 .A (alu .xor (s.get8 .A) (s.get8 .A)).r
    | .loadHL => s.set16 .HL imm
  s'.setFlags d.flagMask d.flagVal

/-- Stage 5: the next PC by the row's PC rule, or the first address past the top (R78). -/
def resolvePc (p : PcOverflow) (d : Descriptor) (pc imm : Word) : Except Nat Word :=
  match d.pcRule with
  | .absoluteImm16 => .ok imm
  | .relative => nextPc p pc d.width

/-- Stages 4 to 6 of a row whose operand bytes are present (R77, R78, R79). -/
def completeRow (p : PcOverflow) (d : Descriptor) (imm : Word) (s : State) : State :=
  match resolvePc p d s.pc imm with
  | .ok next => (applyEffect d imm s).setPC next
  | .error n => s.raise (.addressRange d.opcode s.pc n)

/-- One whole cycle as a total function (R70): a halted state keeps itself (R72's total form), and in RUNNING the stages
follow one another. The placeholder for an absent candidate is consumed by no row (U8; DEDUCED, log 8: safe). -/
def cycle (p : PcOverflow) (s : State) : State :=
  match s.fsm with
  | .halted _ => s
  | .running =>
    let b1 := candidate p s 1
    let b2 := candidate p s 2
    match lookup (s.mem.load s.pc) with
    | none => s.raise (.unsupportedOpcode (s.mem.load s.pc) s.pc)
    | some d =>
      match absentOperand d.width b1 b2 with
      | some k => s.raise (.addressRange d.opcode s.pc (s.pc.toNat + k))
      | none => completeRow p d (imm16 (b1.getD 0) (b2.getD 0)) s

/-- `run(s, 0) = s` and `run(s, k+1) = run(step(s), k)` (R85). -/
def cycles (p : PcOverflow) (s : State) : Nat → State
  | 0 => s
  | k + 1 => cycles p (cycle p s) k

end Sys2Proof.Machine
end

