-- ==== Sys2Proof/Safety.lean ====
section
/-! DEFINITION. The terms the statements use: the invariant of the machine, the runs that stay RUNNING, and R80's step
function written down as the spec writes it, beside the machine, so that the machine can be compared with it. -/

namespace Sys2Proof.Safety

open Sys2Proof.Machine

/-- The opcodes of the closed table (R63). -/
def supported (op : Byte) : Bool := op == 0x00#8 || op == 0x21#8 || op == 0xAF#8 || op == 0xC3#8

/-- The address at and above which an instruction of this opcode needs an address past 0xFFFF (R97): NOP and XOR A at
0xFFFF, JP a16 from 0xFFFE, LD HL,d16 from 0xFFFD. -/
def firstBadPc (op : Byte) : Nat :=
  if op = 0xC3#8 then 0xFFFE else if op = 0x21#8 then 0xFFFD else 0xFFFF

/-- A halted state's record tells the truth about the state it was raised in, which halting left as it was (R96, R97,
R100): its `pc` is PC, its `opcode` the byte there, and the cause it names holds. -/
def recordTrue (s : State) : Bool :=
  match s.fsm with
  | .running => true
  | .halted (.unsupportedOpcode op pc) => pc == s.pc && op == s.mem.load s.pc && !supported op
  | .halted (.addressRange op pc addr) =>
    pc == s.pc && op == s.mem.load s.pc && supported op && decide (firstBadPc op ≤ pc.toNat) && addr == 0x10000

/-- The invariant: memory in its canonical form, the error record true. -/
def Inv (s : State) : Prop := Memory.wf s.mem = true ∧ recordTrue s = true

/-- `n` cycles from `s` all end in RUNNING. -/
def staysRunning (s : State) (n : Nat) : Prop :=
  ∀ k, k ≤ n → (cycles Config.pcOverflow s k).fsm = .running

/-- `commitRel` of R80. -/
def r80CommitRel (s s' : State) (op : Byte) (w : Nat) : State :=
  let n := s.pc.toNat + 1 + w
  if n > 0xFFFF then { s with fsm := .halted (.addressRange op s.pc n) }
  else { s' with pc := BitVec.ofNat 16 n }

/-- R80's `step`, line by line: no decoder, no descriptor, no operation of the machine but its reading of a byte. -/
def r80Step (s : State) : State :=
  match s.fsm with
  | .halted _ => s
  | .running =>
    let pc0 := s.pc.toNat
    let op := s.mem.read pc0
    let b1 := if pc0 + 1 ≤ 0xFFFF then some (s.mem.read (pc0 + 1)) else none
    let b2 := if pc0 + 2 ≤ 0xFFFF then some (s.mem.read (pc0 + 2)) else none
    if op = 0x00#8 then r80CommitRel s s op 0
    else if op = 0xAF#8 then
      r80CommitRel s { s with a := 0x00#8, zf := true, nf := false, hf := false, cf := false } op 0
    else if op = 0x21#8 then
      match b1, b2 with
      | none, _ => { s with fsm := .halted (.addressRange op s.pc (pc0 + 1)) }
      | some _, none => { s with fsm := .halted (.addressRange op s.pc (pc0 + 2)) }
      | some lo, some hi => r80CommitRel s { s with h := hi, l := lo } op 2
    else if op = 0xC3#8 then
      match b1, b2 with
      | none, _ => { s with fsm := .halted (.addressRange op s.pc (pc0 + 1)) }
      | some _, none => { s with fsm := .halted (.addressRange op s.pc (pc0 + 2)) }
      | some lo, some hi => { s with pc := lo.setWidth 16 ||| (hi.setWidth 16 <<< 8) }
    else { s with fsm := .halted (.unsupportedOpcode op s.pc) }

end Sys2Proof.Safety
end

