-- ==== Sys2Proof/Certificates/Slice0/Obligations.lean ====
section
/-! DEFINITION. The statements for the provers, in the order of the spec's files. A clause that rests on a decision of
the spec's own (92_eei_decisions.md) or on a passage from general knowledge says so. -/

open Sys2Proof Sys2Proof.Machine Sys2Proof.Safety

/-! ## State: the register file, the flag register, reset -/

/-- R20: a write of a number `n` to an 8-bit register stores `n mod 256`; the other registers, SP, PC, the flags, memory
and the FSM keep their values. -/
def Obligations.EightBitWriteTruncates : Prop :=
  ∀ (s : State) (r r' : Reg8) (n : Nat),
    ((s.set8 r (trunc8 n)).get8 r').toNat = (if r' = r then n % 256 else (s.get8 r').toNat) ∧
      (s.set8 r (trunc8 n)).sp = s.sp ∧ (s.set8 r (trunc8 n)).pc = s.pc ∧
      (s.set8 r (trunc8 n)).getFlags = s.getFlags ∧
      (s.set8 r (trunc8 n)).mem = s.mem ∧ (s.set8 r (trunc8 n)).fsm = s.fsm

/-- The pair views compose and split without storage of their own, and only the AF write touches the flags (10_state.md,
section 2). BC, DE and AF are the spec's own choice (D4, log 4) and AF's byte layout is general knowledge (D3, log 4). -/
def Obligations.PairViewsComposeAndSplit : Prop :=
  ∀ (s : State) (v : Word),
    s.get16 .BC = (zext16 s.b <<< 8) ||| zext16 s.c ∧ s.get16 .DE = (zext16 s.d <<< 8) ||| zext16 s.e ∧
      s.get16 .HL = (zext16 s.h <<< 8) ||| zext16 s.l ∧ s.get16 .AF = (zext16 s.a <<< 8) ||| zext16 s.getF ∧
      s.set16 .BC v = { s with b := v.extractLsb' 8 8, c := v.extractLsb' 0 8 } ∧
      s.set16 .DE v = { s with d := v.extractLsb' 8 8, e := v.extractLsb' 0 8 } ∧
      s.set16 .HL v = { s with h := v.extractLsb' 8 8, l := v.extractLsb' 0 8 } ∧
      s.set16 .AF v =
        { s with
          a := v.extractLsb' 8 8
          zf := v.getLsbD 7
          nf := v.getLsbD 6
          hf := v.getLsbD 5
          cf := v.getLsbD 4 }

/-- Round trip of the pair views for every 16-bit `v`, and the halves of HL; for AF it holds exactly when bits 3..0 of `v`
are 0 (10_state.md, section 2; the spec derives the clauses for BC, DE and AF from its own choice of views, log 4). -/
def Obligations.PairRoundTrip : Prop :=
  ∀ (s : State) (v : Word),
    (s.set16 .HL v).get16 .HL = v ∧ (s.set16 .HL v).h.toNat = v.toNat / 256 ∧
      (s.set16 .HL v).l.toNat = v.toNat % 256 ∧
      (s.set16 .BC v).get16 .BC = v ∧ (s.set16 .DE v).get16 .DE = v ∧
      ((s.set16 .AF v).get16 .AF = v ↔ v.toNat % 16 = 0)

/-- R24: under `setFlags(mask, val)` each flag whose mask bit is 1 takes its value, each other flag keeps its own, and
nothing but the flags is written. -/
def Obligations.FlagWriteFollowsMask : Prop :=
  ∀ (s : State) (mask val : FlagBits),
    s.setFlags mask val =
      { s with
        zf := if mask.z then val.z else s.zf
        nf := if mask.n then val.n else s.nf
        hf := if mask.h then val.h else s.hf
        cf := if mask.c then val.c else s.cf }

/-- The flag byte is `128 Z + 64 N + 32 H + 16 C`, its low four bits 0 (10_state.md, section 3: a layout the spec takes
from general knowledge, D3, log 4). -/
def Obligations.FlagByteLayout : Prop :=
  ∀ s : State,
    s.getF.toNat = 128 * s.zf.toNat + 64 * s.nf.toNat + 32 * s.hf.toNat + 16 * s.cf.toNat

/-- SP can be written and read back, no instruction reads or writes it, and from a reset after any image it stays 0x0000 in
every run (10_state.md, section 4: the last clause is the spec's own inference). -/
def Obligations.StackPointerIsUntouched : Prop :=
  (∀ (s : State) (n : Nat), (s.setSP (trunc16 n)).getSP.toNat = n % 65536) ∧
    (∀ (i : Instr) (s t : State) (v : Word),
      exec i s = .next t → t.sp = s.sp ∧ exec i (s.setSP v) = .next (t.setSP v)) ∧
    ∀ (bytes : List Byte) (s t : State) (n : Nat),
      boot (some bytes) = .ok s → Sys2Proof.core.run n s = .next t → t.sp = 0x0000#16

/-- For every image that fits, boot gives all seven registers 0x00, SP 0x0000, PC 0x0100, flags false, flag byte 0x00,
RUNNING with no error, memory holding image byte `i` at address `i` and 0x00 above (10_state.md, section 8;
70_reset_and_hazards.md, section 2); an image that could not be obtained is ImageLoadError (60_exceptions.md, section 1) and a
longer one is refused. The model's own: the refusal's name and its length (log 18), memory's canonical form (log 17); the flag
byte's value rests on a layout from general knowledge (log 4). -/
def Obligations.BootLoadsImageAndResets : Prop :=
  boot none = .error .imageLoadError ∧
    ∀ bytes : List Byte,
      (65536 < bytes.length → boot (some bytes) = .error (.imageTooLong bytes.length)) ∧
        (bytes.length ≤ 65536 →
          ∃ s, boot (some bytes) = .ok s ∧
            s.a = 0 ∧ s.b = 0 ∧ s.c = 0 ∧ s.d = 0 ∧ s.e = 0 ∧ s.h = 0 ∧ s.l = 0 ∧
            s.sp = 0x0000#16 ∧ s.pc = 0x0100#16 ∧ s.getFlags = ⟨false, false, false, false⟩ ∧ s.getF = 0x00#8 ∧
            s.fsm = .running ∧ s.error = none ∧ s.mem.wf = true ∧
            ∀ addr : Word, s.mem.load addr = if h : addr.toNat < bytes.length then bytes[addr.toNat] else 0x00#8)

/-- The reset event: before the first step or after a halt it gives every register, flag and the FSM its reset value, leaves
memory as it is and begins a new run; in mid-run it cannot happen (70_reset_and_hazards.md, section 1). That it then answers
`none`, and that the count of steps stands beside the state, is the model's (log 12). -/
def Obligations.ResetEventKeepsMemory : Prop :=
  ∀ r : Run,
    (r.steps = 0 ∨ (∃ e, r.state.fsm = .halted e) →
      r.resetEvent =
        some
          { state :=
              { a := 0, b := 0, c := 0, d := 0, e := 0, h := 0, l := 0, sp := 0x0000#16, pc := 0x0100#16,
                zf := false, nf := false, hf := false, cf := false, mem := r.state.mem, fsm := .running }
            steps := 0 }) ∧
      (r.steps ≠ 0 → r.state.fsm = .running → r.resetEvent = none)

/-- The invariant `Inv` holds at reset and after boot from any image: the error record is true, and memory is in its canonical
form (the model's representation, log 17). The first clause is about the empty image, which is the model's choice (log 3). -/
def Obligations.ResetMeetsInvariant : Prop :=
  Inv State.reset ∧ ∀ (bytes : List Byte) (s : State), boot (some bytes) = .ok s → Inv s

/-- The invariant that every step keeps: a halted state's error record names PC, the byte there, and a cause that holds of
them, with `addr = 0x10000` (60_exceptions.md, sections 1 and 2), and memory stays in its canonical form (the model's
representation, log 17). -/
def Obligations.StepKeepsInvariant : Prop :=
  ∀ s t : State, Inv s → step s = .next t → Inv t

/-! ## Memory -/

/-- R42: `store` sets the addressed byte and leaves every other byte as it was (in a memory in canonical form, log 17,
which `StepKeepsInvariant` keeps); nothing else of the state changes, and no instruction stores. -/
def Obligations.StoreWritesOneByte : Prop :=
  (∀ (s : State) (addr x : Word) (v : Byte),
    s.mem.wf = true →
      (s.store addr v).mem.load x = (if x = addr then v else s.mem.load x) ∧
        s.store addr v = { s with mem := (s.store addr v).mem }) ∧
    ∀ (i : Instr) (s t : State), exec i s = .next t → t.mem = s.mem

/-- R43: `loadWord(addr)` for `addr ≤ 0xFFFE` is `mem[addr] | mem[addr + 1] << 8`, and no state changes. -/
def Obligations.LoadWordIsLittleEndian : Prop :=
  ∀ (m : Memory) (addr : Word),
    addr.toNat ≤ 0xFFFE →
      m.loadWord addr = some (zext16 (m.load addr) ||| (zext16 (m.load (addr + 1)) <<< 8))

/-- Memories in canonical form that read alike at every address are the same data (the model's representation, log 17). -/
def Obligations.MemoriesReadingAlikeAreEqual : Prop :=
  ∀ m m' : Memory, m.wf = true → m'.wf = true → (∀ addr : Word, m.load addr = m'.load addr) → m = m'

/-- A byte stored at PC is what the very next fetch decodes, with no fence (20_memory.md, section 5; D22), in a memory in
canonical form (log 17). -/
def Obligations.StoreIsSeenByNextFetch : Prop :=
  ∀ (s : State) (v : Byte),
    s.mem.wf = true →
      fetchDecode (s.store s.pc v) =
        match decode v (candidate Config.pcOverflow s 1) (candidate Config.pcOverflow s 2) with
        | .ok i => .ok i
        | .error e => .error (errorOfDecode s.pc e)

/-- Memory after any run equals memory before it (43_loads.md: an inference of the spec's own from its four rules). -/
def Obligations.MemoryNeverChanges : Prop :=
  ∀ (n : Nat) (s t : State), Sys2Proof.core.run n s = .next t → t.mem = s.mem

/-! ## Encoding -/

/-- Decoding the encoding of any well-formed instruction, whatever bytes follow it, gives it back with those bytes left. -/
def Obligations.DecodeOfEncodeIsTheInstruction : Prop :=
  ∀ (i : Instr) (rest : List Byte), i.wellFormed = true → decodeBytes (encode i ++ rest) = .ok (i, rest)

/-- Bytes that decode are the encoding of what they decode to: no byte of an instruction is ignored. -/
def Obligations.EncodeOfDecodeIsTheBytes : Prop :=
  ∀ (bs rest : List Byte) (i : Instr), decodeBytes bs = .ok (i, rest) → bs = encode i ++ rest

/-- The byte sequences that the in-scope column of the table of formats admits are exactly the encodings
(30_encoding.md, sections 1 and 3). -/
def Obligations.WellFormedBytesAreTheEncodings : Prop :=
  ∀ bs : List Byte, wellFormedBytes bs = true ↔ ∃ i, encode i = bs

/-- Words written out from the spec's encodings decode to the instructions they stand for (opcode_table.json; the operand
bytes from 95_test_vectors.md). -/
def Obligations.SampleWordsDecode : Prop :=
  decodeTableWord 8 0x00 = some .nop ∧ decodeTableWord 8 0xAF = some .xorA ∧
    decodeTableWord 24 0x1234C3 = some (.jpA16 0x1234#16) ∧ decodeTableWord 24 0xABCD21 = some (.ldHlD16 0xABCD#16) ∧
    decodeTableWord 8 0xC3 = some (.jpA16 0x0000#16) ∧ decodeTableWord 8 0xCB = none

/-- R57: the opcode byte alone fixes the length: whatever the candidate bytes, what decodes is `1 + w` bytes long with the
`w` of the opcode's row. -/
def Obligations.OpcodeByteFixesLength : Prop :=
  ∀ (op : Byte) (b1 b2 : Option Byte) (i : Instr),
    decode op b1 b2 = .ok i →
      ∃ d, lookup op = some d ∧ i.length = 1 + d.width ∧ (encode i).length = 1 + d.width

/-- R58: the immediate is little-endian and unsigned, `b1 + 256 b2`, and is the jump target of 0xC3 and the data of 0x21. -/
def Obligations.ImmediateIsLittleEndian : Prop :=
  ∀ b1 b2 : Byte,
    (imm16 b1 b2 = zext16 b1 ||| (zext16 b2 <<< 8)) ∧ (imm16 b1 b2).toNat = b1.toNat + 256 * b2.toNat ∧
      decode 0xC3#8 (some b1) (some b2) = .ok (.jpA16 (imm16 b1 b2)) ∧
      decode 0x21#8 (some b1) (some b2) = .ok (.ldHlD16 (imm16 b1 b2))

/-- R63: every byte but 0x00, 0x21, 0xAF and 0xC3 is unsupported, 252 of them, 0xFF and 0xCB among them; decoding one gives
`Unsupported(op)` and the FSM halts with UnsupportedOpcodeError. -/
def Obligations.UnsupportedBytesHalt : Prop :=
  (∀ op : Byte, lookup op = none ↔ op ≠ 0x00#8 ∧ op ≠ 0x21#8 ∧ op ≠ 0xAF#8 ∧ op ≠ 0xC3#8) ∧
    ((List.range 256).filter fun n => (lookup (trunc8 n)).isNone).length = 252 ∧
    lookup 0xFF#8 = none ∧ lookup 0xCB#8 = none ∧
    (∀ (op : Byte) (b1 b2 : Option Byte), lookup op = none → decode op b1 b2 = .error (.unsupportedOpcode op)) ∧
    ∀ s : State,
      s.fsm = .running → lookup (s.mem.load s.pc) = none →
        step s = .next (s.raise (.unsupportedOpcode (s.mem.load s.pc) s.pc))

/-- A candidate byte is read where its address is at most 0xFFFF and absent otherwise, and under `wrap` it is read at the
truncated address (30_encoding.md, section 4); a width-0 opcode decodes whatever the candidates are, and an absent byte that a
width-2 opcode consumes is reported, the lower first (the operand check of 40_fetch_decode_execute.md, section 2). That it is
the decoder that makes this check, and refuses, is the model's reading (log 8). -/
def Obligations.CandidatesAreReadOrAbsent : Prop :=
  (∀ (s : State) (k : Nat),
    candidate .fault s k =
        (if s.pc.toNat + k ≤ 0xFFFF then some (s.mem.load (trunc16 (s.pc.toNat + k))) else none) ∧
      candidate .wrap s k = some (s.mem.load (trunc16 (s.pc.toNat + k)))) ∧
    (∀ b1 b2 : Option Byte, decode 0x00#8 b1 b2 = .ok .nop ∧ decode 0xAF#8 b1 b2 = .ok .xorA) ∧
    (∀ (op : Byte) (b2 : Option Byte), op = 0xC3#8 ∨ op = 0x21#8 → decode op none b2 = .error (.absentOperand op 1)) ∧
    (∀ (op b1 : Byte), op = 0xC3#8 ∨ op = 0x21#8 → decode op (some b1) none = .error (.absentOperand op 2)) ∧
    ∀ (d : Descriptor) (b1 b2 : Option Byte),
      (absentOperand d.width b1 b2 = some 1 ↔ 1 ≤ (d.width : Nat) ∧ b1 = none) ∧
        (absentOperand d.width b1 b2 = some 2 ↔ (d.width : Nat) = 2 ∧ b1 ≠ none ∧ b2 = none)

/-! ## The instructions -/

/-- R86 NOP: encoded as the one byte 0x00 and decoded from it whatever follows; no effect but PC, which advances by 1; at
0xFFFF AddressRangeError (D6) and no other error. -/
def Obligations.NopAdvancesPcOnly : Prop :=
  encode .nop = [0x00#8] ∧ (∀ b1 b2 : Option Byte, decode 0x00#8 b1 b2 = .ok .nop) ∧
    ∀ s : State,
      (s.pc ≠ 0xFFFF#16 → exec .nop s = .next { s with pc := s.pc + 1 }) ∧
        (s.pc = 0xFFFF#16 →
          exec .nop s = .next { s with fsm := .halted (.addressRange 0x00#8 0xFFFF#16 0x10000) })

/-- R87 JP a16: encoded opcode, low byte, high byte; PC becomes the target, wherever it is taken from, and nothing else
changes; AddressRangeError at 0xFFFE and 0xFFFF (D7); at 0xFFFD it succeeds. -/
def Obligations.JumpSetsPcOnly : Prop :=
  ∀ target : Word,
    encode (.jpA16 target) = [0xC3#8, target.extractLsb' 0 8, target.extractLsb' 8 8] ∧
      (∀ b1 b2 : Byte, decode 0xC3#8 (some b1) (some b2) = .ok (.jpA16 (zext16 b1 ||| (zext16 b2 <<< 8)))) ∧
      ∀ s : State,
        (s.pc.toNat ≤ 0xFFFD → exec (.jpA16 target) s = .next { s with pc := target }) ∧
          (s.pc = 0xFFFE#16 ∨ s.pc = 0xFFFF#16 →
            exec (.jpA16 target) s = .next { s with fsm := .halted (.addressRange 0xC3#8 s.pc 0x10000) })

/-- R91 XOR A: encoded as the one byte 0xAF; the ALU's XOR of A with itself, so A becomes 0x00 and the flags Z = 1,
N = H = C = 0 whatever they were, and PC advances by 1; at 0xFFFF AddressRangeError (D6) with A and the flags kept. -/
def Obligations.XorAClearsAccumulator : Prop :=
  encode .xorA = [0xAF#8] ∧ (∀ b1 b2 : Option Byte, decode 0xAF#8 b1 b2 = .ok .xorA) ∧
    (∀ a : Byte, alu .xor a a = ⟨0x00#8, ⟨true, true, true, true⟩, ⟨true, false, false, false⟩⟩) ∧
    ∀ s : State,
      (s.pc ≠ 0xFFFF#16 →
        exec .xorA s =
          .next { s with a := 0x00#8, zf := true, nf := false, hf := false, cf := false, pc := s.pc + 1 }) ∧
        (s.pc = 0xFFFF#16 →
          exec .xorA s = .next { s with fsm := .halted (.addressRange 0xAF#8 0xFFFF#16 0x10000) })

/-- R93 LD HL,d16: encoded opcode, low byte, high byte; H takes bits 15..8 and L bits 7..0 of `v`, PC advances by 3, nothing
else changes; AddressRangeError at 0xFFFD, 0xFFFE and 0xFFFF (D6, D7) with H and L kept. -/
def Obligations.LoadHLSetsPair : Prop :=
  ∀ v : Word,
    encode (.ldHlD16 v) = [0x21#8, v.extractLsb' 0 8, v.extractLsb' 8 8] ∧
      (∀ b1 b2 : Byte, decode 0x21#8 (some b1) (some b2) = .ok (.ldHlD16 (zext16 b1 ||| (zext16 b2 <<< 8)))) ∧
      ∀ s : State,
        (s.pc.toNat ≤ 0xFFFC →
          exec (.ldHlD16 v) s =
            .next { s with h := v.extractLsb' 8 8, l := v.extractLsb' 0 8, pc := s.pc + 3 }) ∧
          (s.pc = 0xFFFD#16 ∨ s.pc = 0xFFFE#16 ∨ s.pc = 0xFFFF#16 →
            exec (.ldHlD16 v) s = .next { s with fsm := .halted (.addressRange 0x21#8 s.pc 0x10000) })

/-- What NOP and JP a16 leave as it was: every data register, SP, every flag, every byte of memory; the FSM too, unless the
instruction ended in its AddressRangeError. -/
def Obligations.FrameOfNopAndJump : Prop :=
  ∀ (i : Instr) (s t : State),
    (i = .nop ∨ ∃ target, i = .jpA16 target) → exec i s = .next t →
      (∀ r : Reg8, t.get8 r = s.get8 r) ∧ t.sp = s.sp ∧ t.getFlags = s.getFlags ∧
        (∀ addr : Word, t.mem.load addr = s.mem.load addr) ∧ t.mem = s.mem ∧
        (t.fsm = s.fsm ∨ (t.pc = s.pc ∧ t.fsm = .halted (.addressRange i.descriptor.opcode s.pc 0x10000)))

/-- What XOR A leaves as it was: every data register but A, SP, every byte of memory; it writes all four flags (R91), but on
its AddressRangeError neither A nor a flag. -/
def Obligations.FrameOfXorA : Prop :=
  ∀ s t : State,
    exec .xorA s = .next t →
      (∀ r : Reg8, r ≠ .A → t.get8 r = s.get8 r) ∧ t.sp = s.sp ∧
        (∀ addr : Word, t.mem.load addr = s.mem.load addr) ∧ t.mem = s.mem ∧
        (t.fsm = s.fsm ∨
          (t.a = s.a ∧ t.getFlags = s.getFlags ∧ t.pc = s.pc ∧
            t.fsm = .halted (.addressRange 0xAF#8 s.pc 0x10000)))

/-- What LD HL,d16 leaves as it was: every data register but H and L, SP, every flag, every byte of memory; on its
AddressRangeError H and L too. -/
def Obligations.FrameOfLoadHL : Prop :=
  ∀ (v : Word) (s t : State),
    exec (.ldHlD16 v) s = .next t →
      (∀ r : Reg8, r ≠ .H → r ≠ .L → t.get8 r = s.get8 r) ∧ t.sp = s.sp ∧ t.getFlags = s.getFlags ∧
        (∀ addr : Word, t.mem.load addr = s.mem.load addr) ∧ t.mem = s.mem ∧
        (t.fsm = s.fsm ∨
          (t.h = s.h ∧ t.l = s.l ∧ t.pc = s.pc ∧ t.fsm = .halted (.addressRange 0x21#8 s.pc 0x10000)))

/-- R25: only XOR A writes flags, all four, to Z = true and N = H = C = false; the other three leave them; and no instruction
reads one: with any other flags before, the next state is the same but for the flags. -/
def Obligations.OnlyXorAWritesFlags : Prop :=
  (∀ (i : Instr) (s t : State), exec i s = .next t → i ≠ .xorA → t.getFlags = s.getFlags) ∧
    (∀ s : State, s.pc ≠ 0xFFFF#16 →
      ∃ t, exec .xorA s = .next t ∧ t.getFlags = ⟨true, false, false, false⟩) ∧
    ∀ (i : Instr) (s t : State) (f : FlagBits),
      exec i s = .next t →
        ∃ t', exec i (s.setFlags allFlags f) = .next t' ∧ t'.setFlags allFlags t.getFlags = t

/-- The ALU's XOR of any two bytes: the bitwise result, all four flags named, Z the test of the result, N = H = C = false
(42_alu.md, section 1: for different operands the spec's own choice, D19, log 5). -/
def Obligations.AluXorResultAndFlags : Prop :=
  ∀ a b : Byte,
    (alu .xor a b).r = a ^^^ b ∧ (alu .xor a b).mask = ⟨true, true, true, true⟩ ∧
      ((alu .xor a b).val.z = true ↔ a = b) ∧ (alu .xor a b).val.n = false ∧ (alu .xor a b).val.h = false ∧
      (alu .xor a b).val.c = false

/-! ## The cycle -/

/-- A step from RUNNING whose opcode and candidate bytes decode to a well-formed instruction is that instruction's meaning at
that same state, with nothing around it (40_fetch_decode_execute.md, section 2). -/
def Obligations.StepRunsDecodedInstruction : Prop :=
  ∀ (s : State) (i : Instr),
    s.fsm = .running →
      decode (s.mem.load s.pc) (candidate Config.pcOverflow s 1) (candidate Config.pcOverflow s 2) = .ok i →
        i.wellFormed = true → step s = exec i s

/-- R71: from RUNNING a cycle always answers a state, which is RUNNING again or HALTED-ON-ERROR with the triggering error;
and a next state comes from RUNNING only. -/
def Obligations.RunningAlwaysAnswersAState : Prop :=
  (∀ s : State, s.fsm = .running →
    ∃ t, step s = .next t ∧ (t.fsm = .running ∨ ∃ e, t.fsm = .halted e ∧ t = s.raise e)) ∧
    ∀ s t : State, step s = .next t → s.fsm = .running

/-- R72: HALTED-ON-ERROR is terminal: `step` gives it no successor, the total form of the cycle keeps it for ever
under either `PC_OVERFLOW`, and reset, however many steps the run has taken, leaves it for a new run. -/
def Obligations.HaltedIsTerminal : Prop :=
  ∀ (s : State) (e : CoreError),
    s.fsm = .halted e →
      (∀ t, step s ≠ .next t) ∧
        (∀ (p : PcOverflow) (n : Nat), cycles p s n = s) ∧
        ∀ n : Nat, ∃ u, Run.resetEvent ⟨s, n⟩ = some u ∧ u.state.fsm = .running ∧ u.steps = 0

/-- R76: a consumed operand byte that is absent raises AddressRangeError with its address, the lower first, and commits
nothing; for the opcodes in scope exactly when `w = 2` and PC is 0xFFFE or 0xFFFF, with `addr = 0x10000`; under `wrap` no
operand byte is ever absent. -/
def Obligations.OperandCheckRaises : Prop :=
  ∀ (s : State) (d : Descriptor),
    s.fsm = .running → lookup (s.mem.load s.pc) = some d →
      (1 ≤ (d.width : Nat) → candidate .fault s 1 = none →
        step s = .next (s.raise (.addressRange (s.mem.load s.pc) s.pc (s.pc.toNat + 1))) ∧
          s.pc.toNat + 1 = 0x10000) ∧
        ((d.width : Nat) = 2 → candidate .fault s 1 ≠ none → candidate .fault s 2 = none →
          step s = .next (s.raise (.addressRange (s.mem.load s.pc) s.pc (s.pc.toNat + 2))) ∧
            s.pc.toNat + 2 = 0x10000) ∧
        (absentOperand d.width (candidate .fault s 1) (candidate .fault s 2) ≠ none ↔
          (d.width : Nat) = 2 ∧ (s.pc = 0xFFFE#16 ∨ s.pc = 0xFFFF#16)) ∧
        absentOperand d.width (candidate .wrap s 1) (candidate .wrap s 2) = none

/-- R78: with the operand bytes present, an absolute row's next PC is imm16; a relative row's is `pc0 + 1 + w` where that is
at most 0xFFFF; past it, `fault` raises AddressRangeError and commits nothing, `wrap` truncates. -/
def Obligations.NextPcRule : Prop :=
  ∀ (p : PcOverflow) (s : State) (d : Descriptor),
    s.fsm = .running → lookup (s.mem.load s.pc) = some d →
      absentOperand d.width (candidate p s 1) (candidate p s 2) = none →
        (d.pcRule = .absoluteImm16 →
          ∃ b1 b2, candidate p s 1 = some b1 ∧ candidate p s 2 = some b2 ∧
            (cycle p s).pc = imm16 b1 b2 ∧ (cycle p s).fsm = .running) ∧
          (d.pcRule = .relative → s.pc.toNat + 1 + d.width ≤ 0xFFFF →
            (cycle p s).pc.toNat = s.pc.toNat + 1 + d.width ∧ (cycle p s).fsm = .running) ∧
          (d.pcRule = .relative → 0xFFFF < s.pc.toNat + 1 + d.width → p = .fault →
            cycle p s = s.raise (.addressRange (s.mem.load s.pc) s.pc (s.pc.toNat + 1 + d.width))) ∧
          (d.pcRule = .relative → 0xFFFF < s.pc.toNat + 1 + d.width → p = .wrap →
            (cycle p s).pc.toNat = (s.pc.toNat + 1 + d.width) % 65536 ∧ (cycle p s).fsm = .running)

/-- R29: where a cycle ends in RUNNING, PC has moved by exactly 1 (0x00, 0xAF) or 3 (0x21), without wrapping, or is imm16
(0xC3), with no relative advance besides. -/
def Obligations.PcMovesByTheRow : Prop :=
  ∀ s t : State,
    step s = .next t → t.fsm = .running →
      (s.mem.load s.pc = 0x00#8 ∧ t.pc.toNat = s.pc.toNat + 1) ∨
        (s.mem.load s.pc = 0xAF#8 ∧ t.pc.toNat = s.pc.toNat + 1) ∨
        (s.mem.load s.pc = 0x21#8 ∧ t.pc.toNat = s.pc.toNat + 3) ∨
        (s.mem.load s.pc = 0xC3#8 ∧ t.pc = imm16 (s.mem.load (s.pc + 1)) (s.mem.load (s.pc + 2)))

/-- The machine, instruction by instruction, is the step function of 40_fetch_decode_execute.md, section 3, as the spec
writes it down (the spec derives that function from its stage rules); and that function keeps a halted state. -/
def Obligations.StepIsTheWrittenStepFunction : Prop :=
  ∀ s : State,
    (s.fsm = .running → step s = .next (r80Step s)) ∧ (∀ e, s.fsm = .halted e → r80Step s = s)

/-- The machine is the FSM's stages driven by the descriptors, at the default `PC_OVERFLOW`
(40_fetch_decode_execute.md, section 2). -/
def Obligations.StagesAgreeWithStep : Prop :=
  ∀ s : State, s.fsm = .running → step s = .next (cycle Config.pcOverflow s)

/-- The alternative `PC_OVERFLOW = wrap` (00_scope.md, section 3): from RUNNING it never raises AddressRangeError; a supported
opcode ends in RUNNING and an unsupported one in its UnsupportedOpcodeError; and wherever the default raises no
AddressRangeError, as it never does up to 0xFFFC, `wrap` ends in the same state. -/
def Obligations.WrapDiffersOnlyPastTheTop : Prop :=
  ∀ s : State, s.fsm = .running →
    (∀ op pc addr, (cycle .wrap s).fsm ≠ .halted (.addressRange op pc addr)) ∧
      (lookup (s.mem.load s.pc) ≠ none → (cycle .wrap s).fsm = .running) ∧
      (lookup (s.mem.load s.pc) = none →
        cycle .wrap s = s.raise (.unsupportedOpcode (s.mem.load s.pc) s.pc)) ∧
      ((∀ op pc addr, (cycle .fault s).fsm ≠ .halted (.addressRange op pc addr)) →
        cycle .wrap s = cycle .fault s) ∧
      (s.pc.toNat ≤ 0xFFFC → cycle .wrap s = cycle .fault s)

/-- A bounded run of the host's interface that ends in a state ends in the state of the spec's bounded run
(40_fetch_decode_execute.md, section 3). -/
def Obligations.BoundedRunIsTheHostRun : Prop :=
  ∀ (n : Nat) (s t : State), Sys2Proof.core.run n s = .next t → cycles Config.pcOverflow s n = t

/-- No data register, no flag and not SP steers a run: from two states with the same PC, memory and FSM state, runs of the
same length end with the same PC, memory and FSM state (10_state.md, sections 1, 3 and 4). -/
def Obligations.DataNeverSteersControl : Prop :=
  ∀ (n : Nat) (s s' t : State),
    s.pc = s'.pc → s.mem = s'.mem → s.fsm = s'.fsm → Sys2Proof.core.run n s = .next t →
      ∃ t', Sys2Proof.core.run n s' = .next t' ∧ t'.pc = t.pc ∧ t'.mem = t.mem ∧ t'.fsm = t.fsm

/-- Zeros from PC to the top of memory are a run of NOPs that ends in AddressRangeError at 0xFFFF; and so for an image too
short to reach the entry point: 0xFEFF cycles succeed and the next raises it (70_reset_and_hazards.md, section 2: the
spec's own inference). -/
def Obligations.ZeroMemoryRunsNopsToTheTop : Prop :=
  (∀ (s : State) (n : Nat),
    s.fsm = .running → (∀ addr : Word, s.pc.toNat ≤ addr.toNat → s.mem.load addr = 0x00#8) →
      (s.pc.toNat + n ≤ 0xFFFF → cycles Config.pcOverflow s n = { s with pc := trunc16 (s.pc.toNat + n) }) ∧
        (s.pc.toNat + n = 0x10000 →
          cycles Config.pcOverflow s n =
            { s with pc := 0xFFFF#16, fsm := .halted (.addressRange 0x00#8 0xFFFF#16 0x10000) })) ∧
    ∀ (bytes : List Byte) (s : State),
      bytes.length < 0x0101 → boot (some bytes) = .ok s →
        staysRunning s 0xFEFF ∧
          ∀ n : Nat,
            (n ≤ 0xFEFF → cycles Config.pcOverflow s n = { s with pc := trunc16 (0x0100 + n) }) ∧
              (n = 0xFF00 →
                (cycles Config.pcOverflow s n).fsm = .halted (.addressRange 0x00#8 0xFFFF#16 0x10000))

/-- An instruction's bits placed at PC are what the next step runs, at every PC; and where the instruction fits there, they are
what fetch decodes, which for a one-byte instruction is so up to 0xFFFF (the host's `withFetchWord` and `decodeTableWord`,
log 11; memory in canonical form, log 17). -/
def Obligations.PlacedWordIsRunNext : Prop :=
  ∀ (s : State) (nbits w : Nat) (i : Instr),
    s.mem.wf = true → s.fsm = .running → decodeTableWord nbits w = some i →
      (i.fitsAt s.pc = true → fetchDecode (s.withFetchWord nbits w) = .ok i) ∧
        step (s.withFetchWord nbits w) = exec i (s.withFetchWord nbits w)

/-! ## Errors -/

/-- R81 and R100: a cycle that raises an error changes the FSM state and nothing else, PC kept, and the record carries the
opcode and the PC it was raised at. -/
def Obligations.ErrorCommitsNothing : Prop :=
  ∀ (s t : State) (e : CoreError),
    step s = .next t → t.fsm = .halted e →
      t = { s with fsm := .halted e } ∧
        (e = .unsupportedOpcode (s.mem.load s.pc) s.pc ∨ ∃ addr, e = .addressRange (s.mem.load s.pc) s.pc addr)

/-- R96: UnsupportedOpcodeError is raised exactly when the byte at PC is none of 0x00, 0x21, 0xAF, 0xC3, and its record is
that byte and PC. -/
def Obligations.UnsupportedOpcodeErrorExactly : Prop :=
  ∀ s : State, s.fsm = .running →
    ((∃ t op pc, step s = .next t ∧ t.fsm = .halted (.unsupportedOpcode op pc)) ↔
      (s.mem.load s.pc ≠ 0x00#8 ∧ s.mem.load s.pc ≠ 0x21#8 ∧ s.mem.load s.pc ≠ 0xAF#8 ∧ s.mem.load s.pc ≠ 0xC3#8)) ∧
      ∀ t op pc, step s = .next t → t.fsm = .halted (.unsupportedOpcode op pc) → op = s.mem.load s.pc ∧ pc = s.pc

/-- R97: AddressRangeError is raised exactly by NOP and XOR A at 0xFFFF, JP a16 at 0xFFFE and 0xFFFF, and LD HL,d16 at 0xFFFD,
0xFFFE and 0xFFFF; its record is the opcode, PC and 0x10000 (D6, D8). -/
def Obligations.AddressRangeErrorExactly : Prop :=
  ∀ s : State, s.fsm = .running →
    ((∃ t op pc addr, step s = .next t ∧ t.fsm = .halted (.addressRange op pc addr)) ↔
      ((s.mem.load s.pc = 0x00#8 ∨ s.mem.load s.pc = 0xAF#8) ∧ s.pc = 0xFFFF#16) ∨
        (s.mem.load s.pc = 0xC3#8 ∧ (s.pc = 0xFFFE#16 ∨ s.pc = 0xFFFF#16)) ∨
        (s.mem.load s.pc = 0x21#8 ∧ (s.pc = 0xFFFD#16 ∨ s.pc = 0xFFFE#16 ∨ s.pc = 0xFFFF#16))) ∧
      ∀ t op pc addr, step s = .next t → t.fsm = .halted (.addressRange op pc addr) →
        op = s.mem.load s.pc ∧ pc = s.pc ∧ addr = 0x10000

/-- The outputs the host reads: `halted` is true exactly in HALTED-ON-ERROR, and `error` is then its record and empty
otherwise; a step of a halted block stops with that record (60_exceptions.md, section 2; the fault's name is the model's,
log 1). -/
def Obligations.OutputsReportTheHalt : Prop :=
  ∀ s : State,
    (s.halted = true ↔ ∃ e, s.fsm = .halted e) ∧ (∀ e, s.error = some e ↔ s.fsm = .halted e) ∧
      (s.error = none ↔ s.fsm = .running) ∧
      ∀ e, s.fsm = .halted e → step s = .fault (.haltedOnError e)

/-! ## The host's run -/

/-- From boot, a run of `n` steps is `n` steps of the block with the count kept, so a reset can happen only at its start or once
it has halted, and it then begins the very same run again, since no step changes memory (70_reset_and_hazards.md, sections 1
and 2; that a refused reset answers `none` is the model's, log 12). -/
def Obligations.ResetOnlyAtTheEndsOfARun : Prop :=
  ∀ (bytes : List Byte) (s : State) (n : Nat) (r : Run),
    boot (some bytes) = .ok s → Run.advance n ⟨s, 0⟩ = .next r →
      r.steps = n ∧ Sys2Proof.core.run n s = .next r.state ∧
        (n = 0 ∨ r.state.halted = true → r.resetEvent = some ⟨s, 0⟩) ∧
        (n ≠ 0 → r.state.halted = false → r.resetEvent = none)
end

