-- ==== Sys2Proof/Laws/Decode.lean ====
section
/-! SUPPORT. What the decoder's parts can answer: the rows of the table, the operand check, the immediate. -/

namespace Sys2Proof

/-- The table has exactly four rows, each found under its own opcode (R60, R62). -/
theorem lookup_eq_some {op : Byte} {d : Descriptor} :
    lookup op = some d ↔
      (op = 0x00#8 ∧ d = descNop) ∨ (op = 0xC3#8 ∧ d = descJpA16) ∨ (op = 0xAF#8 ∧ d = descXorA) ∨
        (op = 0x21#8 ∧ d = descLdHlD16) := by
  constructor
  · intro h
    unfold lookup at h
    split at h <;> simp_all
  · rintro (⟨rfl, rfl⟩ | ⟨rfl, rfl⟩ | ⟨rfl, rfl⟩ | ⟨rfl, rfl⟩) <;> rfl

/-- Every other opcode byte has no row (R63). -/
theorem lookup_eq_none {op : Byte} :
    lookup op = none ↔ op ≠ 0x00#8 ∧ op ≠ 0xC3#8 ∧ op ≠ 0xAF#8 ∧ op ≠ 0x21#8 := by
  constructor
  · intro h
    refine ⟨?_, ?_, ?_, ?_⟩ <;> rintro rfl <;> cases h
  · rintro ⟨h1, h2, h3, h4⟩
    unfold lookup
    split <;> first | rfl | contradiction

/-- A row that consumes no operand byte misses none (R67). -/
@[simp] theorem absentOperand_zero (b1 b2 : Option Byte) : absentOperand 0 b1 b2 = none := by simp [absentOperand]

/-- A width-2 row: the lower absent byte first (R76, R103). -/
theorem absentOperand_two (b1 b2 : Option Byte) :
    absentOperand 2 b1 b2 = if b1 = none then some 1 else if b2 = none then some 2 else none := by
  simp [absentOperand]

@[simp] theorem absentOperand_two_some (x y : Byte) : absentOperand 2 (some x) (some y) = none := rfl

theorem lowByte_imm16 (b1 b2 : Byte) : lowByte (imm16 b1 b2) = b1 := by
  apply BitVec.eq_of_getLsbD_eq
  intro i hi
  have h1 : i < 16 := by omega
  simp [lowByte, imm16, zext16, hi, h1]

theorem highByte_imm16 (b1 b2 : Byte) : highByte (imm16 b1 b2) = b2 := by
  apply BitVec.eq_of_getLsbD_eq
  intro i hi
  have h1 : 8 + i < 16 := by omega
  simp [highByte, imm16, zext16, hi, h1]

end Sys2Proof
end

