-- ==== Sys2Proof/Laws/Memory.lean ====
section
/-! SUPPORT. Every memory operation keeps the canonical form, and reset's memory has it. -/

namespace Sys2Proof.Machine

theorem Memory.wfFrom_cons (lo a : Nat) (v : Byte) (m : Memory) :
    Memory.wfFrom lo ((a, v) :: m) = true ↔
      lo ≤ a ∧ a < Config.memSize ∧ v ≠ Memory.unlisted ∧ Memory.wfFrom (a + 1) m = true := by
  simp [Memory.wfFrom, and_assoc]

/-- A list in canonical form from `hi` upwards is so from any lower address. -/
theorem Memory.wfFrom_mono {lo hi : Nat} {m : Memory} (hle : lo ≤ hi) (h : Memory.wfFrom hi m = true) :
    Memory.wfFrom lo m = true := by
  cases m with
  | nil => rfl
  | cons e m =>
    obtain ⟨a, v⟩ := e
    rw [Memory.wfFrom_cons] at h ⊢
    exact ⟨hle.trans h.1, h.2⟩

theorem Memory.wfFrom_write {m : Memory} {lo x : Nat} (v : Byte) (h : Memory.wfFrom lo m = true) (hlo : lo ≤ x)
    (hx : x < Config.memSize) : Memory.wfFrom lo (m.write x v) = true := by
  induction m generalizing lo with
  | nil =>
    unfold Memory.write
    split
    · rfl
    · next hv => exact (Memory.wfFrom_cons lo x v []).2 ⟨hlo, hx, hv, rfl⟩
  | cons e m ih =>
    obtain ⟨a, w⟩ := e
    obtain ⟨h1, h2, h3, h4⟩ := (Memory.wfFrom_cons lo a w m).1 h
    unfold Memory.write
    split
    · next hlt =>
      split
      · exact h
      · next hv =>
        exact (Memory.wfFrom_cons _ _ _ _).2 ⟨hlo, hx, hv, (Memory.wfFrom_cons _ _ _ _).2 ⟨hlt, h2, h3, h4⟩⟩
    · next hnlt =>
      split
      · next heq =>
        subst heq
        split
        · exact Memory.wfFrom_mono (by omega) h4
        · next hv => exact (Memory.wfFrom_cons _ _ _ _).2 ⟨hlo, hx, hv, h4⟩
      · next hne => exact (Memory.wfFrom_cons _ _ _ _).2 ⟨h1, h2, h3, ih h4 (by omega)⟩

/-- `store` keeps the canonical form (R42). -/
theorem Memory.wf_store {m : Memory} (addr : Word) (v : Byte) (h : m.wf = true) : (m.store addr v).wf = true :=
  Memory.wfFrom_write v h (Nat.zero_le _) addr.isLt

/-- The memory built from an image that fits is in canonical form (R116). -/
theorem Memory.wfFrom_ofBytes (bytes : List Byte) (base : Nat) (h : base + bytes.length ≤ Config.memSize) :
    Memory.wfFrom base (Memory.ofBytes base bytes) = true := by
  induction bytes generalizing base with
  | nil => rfl
  | cons v bytes ih =>
    have hlen : base + 1 + bytes.length ≤ Config.memSize := by
      rw [List.length_cons] at h; omega
    unfold Memory.ofBytes
    split
    · exact Memory.wfFrom_mono (Nat.le_succ base) (ih (base + 1) hlen)
    · next hv => exact (Memory.wfFrom_cons _ _ _ _).2 ⟨le_rfl, by omega, hv, ih (base + 1) hlen⟩

theorem Memory.wf_reset : Memory.wf State.reset.mem = true := rfl

theorem placeByte_wf {s : State} (k : Nat) (b : Byte) (h : s.mem.wf = true) : (placeByte s k b).mem.wf = true := by
  unfold placeByte
  split
  · exact Memory.wf_store _ _ h
  · exact h

theorem withFetchWord_wf {s : State} (nbits w : Nat) (h : s.mem.wf = true) :
    (s.withFetchWord nbits w).mem.wf = true :=
  placeByte_wf _ _ (placeByte_wf _ _ (placeByte_wf _ _ h))

/-- Zeros before an image's other bytes only move them up: a 0x00 is not listed (R116). -/
theorem Memory.ofBytes_replicate_append (n base : Nat) (bytes : List Byte) :
    Memory.ofBytes base (List.replicate n Memory.unlisted ++ bytes) = Memory.ofBytes (base + n) bytes := by
  induction n generalizing base with
  | zero => rfl
  | succ n ih =>
    rw [List.replicate_succ, List.cons_append, Memory.ofBytes, if_pos rfl, ih, Nat.add_right_comm, Nat.add_assoc]

end Sys2Proof.Machine
end

