-- ==== Sys2Proof/Laws/State.lean ====
section
/-! SUPPORT. What each update of State does to each field, one lemma per field per update, so that no later proof unfolds
a record update. -/

namespace Sys2Proof.Machine

/-! `setPC` (R28). -/

@[simp] theorem State.setPC_a (s : State) (v : Word) : (s.setPC v).a = s.a := rfl
@[simp] theorem State.setPC_b (s : State) (v : Word) : (s.setPC v).b = s.b := rfl
@[simp] theorem State.setPC_c (s : State) (v : Word) : (s.setPC v).c = s.c := rfl
@[simp] theorem State.setPC_d (s : State) (v : Word) : (s.setPC v).d = s.d := rfl
@[simp] theorem State.setPC_e (s : State) (v : Word) : (s.setPC v).e = s.e := rfl
@[simp] theorem State.setPC_h (s : State) (v : Word) : (s.setPC v).h = s.h := rfl
@[simp] theorem State.setPC_l (s : State) (v : Word) : (s.setPC v).l = s.l := rfl
@[simp] theorem State.setPC_sp (s : State) (v : Word) : (s.setPC v).sp = s.sp := rfl
@[simp] theorem State.setPC_pc (s : State) (v : Word) : (s.setPC v).pc = v := rfl
@[simp] theorem State.setPC_zf (s : State) (v : Word) : (s.setPC v).zf = s.zf := rfl
@[simp] theorem State.setPC_nf (s : State) (v : Word) : (s.setPC v).nf = s.nf := rfl
@[simp] theorem State.setPC_hf (s : State) (v : Word) : (s.setPC v).hf = s.hf := rfl
@[simp] theorem State.setPC_cf (s : State) (v : Word) : (s.setPC v).cf = s.cf := rfl
@[simp] theorem State.setPC_mem (s : State) (v : Word) : (s.setPC v).mem = s.mem := rfl
@[simp] theorem State.setPC_fsm (s : State) (v : Word) : (s.setPC v).fsm = s.fsm := rfl

/-! `setSP` (R27). -/

@[simp] theorem State.setSP_a (s : State) (v : Word) : (s.setSP v).a = s.a := rfl
@[simp] theorem State.setSP_b (s : State) (v : Word) : (s.setSP v).b = s.b := rfl
@[simp] theorem State.setSP_c (s : State) (v : Word) : (s.setSP v).c = s.c := rfl
@[simp] theorem State.setSP_d (s : State) (v : Word) : (s.setSP v).d = s.d := rfl
@[simp] theorem State.setSP_e (s : State) (v : Word) : (s.setSP v).e = s.e := rfl
@[simp] theorem State.setSP_h (s : State) (v : Word) : (s.setSP v).h = s.h := rfl
@[simp] theorem State.setSP_l (s : State) (v : Word) : (s.setSP v).l = s.l := rfl
@[simp] theorem State.setSP_sp (s : State) (v : Word) : (s.setSP v).sp = v := rfl
@[simp] theorem State.setSP_pc (s : State) (v : Word) : (s.setSP v).pc = s.pc := rfl
@[simp] theorem State.setSP_zf (s : State) (v : Word) : (s.setSP v).zf = s.zf := rfl
@[simp] theorem State.setSP_nf (s : State) (v : Word) : (s.setSP v).nf = s.nf := rfl
@[simp] theorem State.setSP_hf (s : State) (v : Word) : (s.setSP v).hf = s.hf := rfl
@[simp] theorem State.setSP_cf (s : State) (v : Word) : (s.setSP v).cf = s.cf := rfl
@[simp] theorem State.setSP_mem (s : State) (v : Word) : (s.setSP v).mem = s.mem := rfl
@[simp] theorem State.setSP_fsm (s : State) (v : Word) : (s.setSP v).fsm = s.fsm := rfl

/-! `store` (R42). -/

@[simp] theorem State.store_a (s : State) (x : Word) (v : Byte) : (s.store x v).a = s.a := rfl
@[simp] theorem State.store_b (s : State) (x : Word) (v : Byte) : (s.store x v).b = s.b := rfl
@[simp] theorem State.store_c (s : State) (x : Word) (v : Byte) : (s.store x v).c = s.c := rfl
@[simp] theorem State.store_d (s : State) (x : Word) (v : Byte) : (s.store x v).d = s.d := rfl
@[simp] theorem State.store_e (s : State) (x : Word) (v : Byte) : (s.store x v).e = s.e := rfl
@[simp] theorem State.store_h (s : State) (x : Word) (v : Byte) : (s.store x v).h = s.h := rfl
@[simp] theorem State.store_l (s : State) (x : Word) (v : Byte) : (s.store x v).l = s.l := rfl
@[simp] theorem State.store_sp (s : State) (x : Word) (v : Byte) : (s.store x v).sp = s.sp := rfl
@[simp] theorem State.store_pc (s : State) (x : Word) (v : Byte) : (s.store x v).pc = s.pc := rfl
@[simp] theorem State.store_zf (s : State) (x : Word) (v : Byte) : (s.store x v).zf = s.zf := rfl
@[simp] theorem State.store_nf (s : State) (x : Word) (v : Byte) : (s.store x v).nf = s.nf := rfl
@[simp] theorem State.store_hf (s : State) (x : Word) (v : Byte) : (s.store x v).hf = s.hf := rfl
@[simp] theorem State.store_cf (s : State) (x : Word) (v : Byte) : (s.store x v).cf = s.cf := rfl
@[simp] theorem State.store_mem (s : State) (x : Word) (v : Byte) : (s.store x v).mem = s.mem.store x v := rfl
@[simp] theorem State.store_fsm (s : State) (x : Word) (v : Byte) : (s.store x v).fsm = s.fsm := rfl

/-! `raise` (R100). -/

@[simp] theorem State.raise_a (s : State) (err : CoreError) : (s.raise err).a = s.a := rfl
@[simp] theorem State.raise_b (s : State) (err : CoreError) : (s.raise err).b = s.b := rfl
@[simp] theorem State.raise_c (s : State) (err : CoreError) : (s.raise err).c = s.c := rfl
@[simp] theorem State.raise_d (s : State) (err : CoreError) : (s.raise err).d = s.d := rfl
@[simp] theorem State.raise_e (s : State) (err : CoreError) : (s.raise err).e = s.e := rfl
@[simp] theorem State.raise_h (s : State) (err : CoreError) : (s.raise err).h = s.h := rfl
@[simp] theorem State.raise_l (s : State) (err : CoreError) : (s.raise err).l = s.l := rfl
@[simp] theorem State.raise_sp (s : State) (err : CoreError) : (s.raise err).sp = s.sp := rfl
@[simp] theorem State.raise_pc (s : State) (err : CoreError) : (s.raise err).pc = s.pc := rfl
@[simp] theorem State.raise_zf (s : State) (err : CoreError) : (s.raise err).zf = s.zf := rfl
@[simp] theorem State.raise_nf (s : State) (err : CoreError) : (s.raise err).nf = s.nf := rfl
@[simp] theorem State.raise_hf (s : State) (err : CoreError) : (s.raise err).hf = s.hf := rfl
@[simp] theorem State.raise_cf (s : State) (err : CoreError) : (s.raise err).cf = s.cf := rfl
@[simp] theorem State.raise_mem (s : State) (err : CoreError) : (s.raise err).mem = s.mem := rfl
@[simp] theorem State.raise_fsm (s : State) (err : CoreError) : (s.raise err).fsm = .halted err := rfl

/-! `setFlags` (R24). -/

@[simp] theorem State.setFlags_a (s : State) (mask val : FlagBits) : (s.setFlags mask val).a = s.a := rfl
@[simp] theorem State.setFlags_b (s : State) (mask val : FlagBits) : (s.setFlags mask val).b = s.b := rfl
@[simp] theorem State.setFlags_c (s : State) (mask val : FlagBits) : (s.setFlags mask val).c = s.c := rfl
@[simp] theorem State.setFlags_d (s : State) (mask val : FlagBits) : (s.setFlags mask val).d = s.d := rfl
@[simp] theorem State.setFlags_e (s : State) (mask val : FlagBits) : (s.setFlags mask val).e = s.e := rfl
@[simp] theorem State.setFlags_h (s : State) (mask val : FlagBits) : (s.setFlags mask val).h = s.h := rfl
@[simp] theorem State.setFlags_l (s : State) (mask val : FlagBits) : (s.setFlags mask val).l = s.l := rfl
@[simp] theorem State.setFlags_sp (s : State) (mask val : FlagBits) : (s.setFlags mask val).sp = s.sp := rfl
@[simp] theorem State.setFlags_pc (s : State) (mask val : FlagBits) : (s.setFlags mask val).pc = s.pc := rfl
@[simp] theorem State.setFlags_zf (s : State) (mask val : FlagBits) : (s.setFlags mask val).zf = maskedFlag mask.z val.z s.zf := rfl
@[simp] theorem State.setFlags_nf (s : State) (mask val : FlagBits) : (s.setFlags mask val).nf = maskedFlag mask.n val.n s.nf := rfl
@[simp] theorem State.setFlags_hf (s : State) (mask val : FlagBits) : (s.setFlags mask val).hf = maskedFlag mask.h val.h s.hf := rfl
@[simp] theorem State.setFlags_cf (s : State) (mask val : FlagBits) : (s.setFlags mask val).cf = maskedFlag mask.c val.c s.cf := rfl
@[simp] theorem State.setFlags_mem (s : State) (mask val : FlagBits) : (s.setFlags mask val).mem = s.mem := rfl
@[simp] theorem State.setFlags_fsm (s : State) (mask val : FlagBits) : (s.setFlags mask val).fsm = s.fsm := rfl

/-! `set8` (R19): the named register takes the value, every other field is kept. -/

@[simp] theorem State.set8_a (s : State) (r : Reg8) (v : Byte) :
    (s.set8 r v).a = if r = .A then v else s.a := by cases r <;> rfl
@[simp] theorem State.set8_b (s : State) (r : Reg8) (v : Byte) :
    (s.set8 r v).b = if r = .B then v else s.b := by cases r <;> rfl
@[simp] theorem State.set8_c (s : State) (r : Reg8) (v : Byte) :
    (s.set8 r v).c = if r = .C then v else s.c := by cases r <;> rfl
@[simp] theorem State.set8_d (s : State) (r : Reg8) (v : Byte) :
    (s.set8 r v).d = if r = .D then v else s.d := by cases r <;> rfl
@[simp] theorem State.set8_e (s : State) (r : Reg8) (v : Byte) :
    (s.set8 r v).e = if r = .E then v else s.e := by cases r <;> rfl
@[simp] theorem State.set8_h (s : State) (r : Reg8) (v : Byte) :
    (s.set8 r v).h = if r = .H then v else s.h := by cases r <;> rfl
@[simp] theorem State.set8_l (s : State) (r : Reg8) (v : Byte) :
    (s.set8 r v).l = if r = .L then v else s.l := by cases r <;> rfl
@[simp] theorem State.set8_sp (s : State) (r : Reg8) (v : Byte) : (s.set8 r v).sp = s.sp := by cases r <;> rfl
@[simp] theorem State.set8_pc (s : State) (r : Reg8) (v : Byte) : (s.set8 r v).pc = s.pc := by cases r <;> rfl
@[simp] theorem State.set8_zf (s : State) (r : Reg8) (v : Byte) : (s.set8 r v).zf = s.zf := by cases r <;> rfl
@[simp] theorem State.set8_nf (s : State) (r : Reg8) (v : Byte) : (s.set8 r v).nf = s.nf := by cases r <;> rfl
@[simp] theorem State.set8_hf (s : State) (r : Reg8) (v : Byte) : (s.set8 r v).hf = s.hf := by cases r <;> rfl
@[simp] theorem State.set8_cf (s : State) (r : Reg8) (v : Byte) : (s.set8 r v).cf = s.cf := by cases r <;> rfl
@[simp] theorem State.set8_mem (s : State) (r : Reg8) (v : Byte) : (s.set8 r v).mem = s.mem := by cases r <;> rfl
@[simp] theorem State.set8_fsm (s : State) (r : Reg8) (v : Byte) : (s.set8 r v).fsm = s.fsm := by cases r <;> rfl

/-! `set16 .HL` (R21), the pair write of LD HL,d16. -/

@[simp] theorem State.set16_HL_a (s : State) (v : Word) : (s.set16 .HL v).a = s.a := rfl
@[simp] theorem State.set16_HL_b (s : State) (v : Word) : (s.set16 .HL v).b = s.b := rfl
@[simp] theorem State.set16_HL_c (s : State) (v : Word) : (s.set16 .HL v).c = s.c := rfl
@[simp] theorem State.set16_HL_d (s : State) (v : Word) : (s.set16 .HL v).d = s.d := rfl
@[simp] theorem State.set16_HL_e (s : State) (v : Word) : (s.set16 .HL v).e = s.e := rfl
@[simp] theorem State.set16_HL_h (s : State) (v : Word) : (s.set16 .HL v).h = highByte v := rfl
@[simp] theorem State.set16_HL_l (s : State) (v : Word) : (s.set16 .HL v).l = lowByte v := rfl
@[simp] theorem State.set16_HL_sp (s : State) (v : Word) : (s.set16 .HL v).sp = s.sp := rfl
@[simp] theorem State.set16_HL_pc (s : State) (v : Word) : (s.set16 .HL v).pc = s.pc := rfl
@[simp] theorem State.set16_HL_zf (s : State) (v : Word) : (s.set16 .HL v).zf = s.zf := rfl
@[simp] theorem State.set16_HL_nf (s : State) (v : Word) : (s.set16 .HL v).nf = s.nf := rfl
@[simp] theorem State.set16_HL_hf (s : State) (v : Word) : (s.set16 .HL v).hf = s.hf := rfl
@[simp] theorem State.set16_HL_cf (s : State) (v : Word) : (s.set16 .HL v).cf = s.cf := rfl
@[simp] theorem State.set16_HL_mem (s : State) (v : Word) : (s.set16 .HL v).mem = s.mem := rfl
@[simp] theorem State.set16_HL_fsm (s : State) (v : Word) : (s.set16 .HL v).fsm = s.fsm := rfl

/-! Any pair write (R21): no field outside the data registers and the flags. -/

@[simp] theorem State.set16_sp (s : State) (p : Pair) (v : Word) : (s.set16 p v).sp = s.sp := by cases p <;> rfl
@[simp] theorem State.set16_pc (s : State) (p : Pair) (v : Word) : (s.set16 p v).pc = s.pc := by cases p <;> rfl
@[simp] theorem State.set16_mem (s : State) (p : Pair) (v : Word) : (s.set16 p v).mem = s.mem := by cases p <;> rfl
@[simp] theorem State.set16_fsm (s : State) (p : Pair) (v : Word) : (s.set16 p v).fsm = s.fsm := by cases p <;> rfl

/-! The creation of the instance, and the reset event (R114). -/

@[simp] theorem State.created_a (m : Memory) : (State.created m).a = State.reset.a := rfl
@[simp] theorem State.created_b (m : Memory) : (State.created m).b = State.reset.b := rfl
@[simp] theorem State.created_c (m : Memory) : (State.created m).c = State.reset.c := rfl
@[simp] theorem State.created_d (m : Memory) : (State.created m).d = State.reset.d := rfl
@[simp] theorem State.created_e (m : Memory) : (State.created m).e = State.reset.e := rfl
@[simp] theorem State.created_h (m : Memory) : (State.created m).h = State.reset.h := rfl
@[simp] theorem State.created_l (m : Memory) : (State.created m).l = State.reset.l := rfl
@[simp] theorem State.created_sp (m : Memory) : (State.created m).sp = State.reset.sp := rfl
@[simp] theorem State.created_pc (m : Memory) : (State.created m).pc = State.reset.pc := rfl
@[simp] theorem State.created_zf (m : Memory) : (State.created m).zf = State.reset.zf := rfl
@[simp] theorem State.created_nf (m : Memory) : (State.created m).nf = State.reset.nf := rfl
@[simp] theorem State.created_hf (m : Memory) : (State.created m).hf = State.reset.hf := rfl
@[simp] theorem State.created_cf (m : Memory) : (State.created m).cf = State.reset.cf := rfl
@[simp] theorem State.created_mem (m : Memory) : (State.created m).mem = m := rfl
@[simp] theorem State.created_fsm (m : Memory) : (State.created m).fsm = State.reset.fsm := rfl

/-- Reset can happen exactly before the first step or after a halt (R114). -/
@[simp] theorem Run.mayReset_iff (r : Run) : r.mayReset = true ↔ r.steps = 0 ∨ r.state.halted = true := by
  simp [Run.mayReset]

/-- Everything the reset event can do (R114). -/
theorem Run.resetEvent_eq_some {r u : Run} :
    r.resetEvent = some u ↔ (r.steps = 0 ∨ r.state.halted = true) ∧ u = ⟨State.created r.state.mem, 0⟩ := by
  rw [← Run.mayReset_iff, Run.resetEvent]
  split
  · next h => exact ⟨fun hu => ⟨h, (Option.some.inj hu).symm⟩, fun hu => hu.2 ▸ rfl⟩
  · next h => exact ⟨nofun, fun hu => absurd hu.1 h⟩

/-! A write of a flag under a 0 or a 1 of the mask (R24). -/

@[simp] theorem maskedFlag_false (new old : Bool) : maskedFlag false new old = old := rfl
@[simp] theorem maskedFlag_true (new old : Bool) : maskedFlag true new old = new := rfl

/-- A mask of no flag writes nothing (R24, R25). -/
@[simp] theorem State.setFlags_noFlags (s : State) (val : FlagBits) : s.setFlags noFlags val = s := rfl

/-- Writing back the PC a state holds changes nothing. -/
@[simp] theorem State.setPC_self (s : State) : s.setPC s.pc = s := rfl

end Sys2Proof.Machine
end

