-- ==== Sys2Proof/Laws/Ops.lean ====
section
/-! SUPPORT. For each shared operation of the cycle, once, everything it can do. -/

namespace Sys2Proof.Machine

/-- Below the top the next PC is the exact sum, whatever `PC_OVERFLOW` is (R78). -/
theorem nextPc_of_le {p : PcOverflow} {pc : Word} {w : Nat} (h : pc.toNat + 1 + w ≤ 0xFFFF) :
    nextPc p pc w = .ok (trunc16 (pc.toNat + 1 + w)) := by simp [nextPc, Config.topAddr, h]

/-- Past the top, `fault` answers the first address that does not exist (R78). -/
theorem nextPc_fault_of_gt {pc : Word} {w : Nat} (h : 0xFFFF < pc.toNat + 1 + w) :
    nextPc .fault pc w = .error (pc.toNat + 1 + w) := by
  simp [nextPc, Config.topAddr, Nat.not_le.2 h]

/-- `wrap` never answers an error (R78). -/
theorem nextPc_wrap (pc : Word) (w : Nat) : nextPc .wrap pc w = .ok (trunc16 (pc.toNat + 1 + w)) := by
  unfold nextPc; split <;> rfl

/-- Everything `commitRelative` can do at the default (R78, R79, R81). -/
theorem commitRelative_fault (d : Descriptor) (s s' : State) :
    commitRelative .fault d s s' =
      if s.pc.toNat + 1 + d.width ≤ 0xFFFF then .next (s'.setPC (trunc16 (s.pc.toNat + 1 + d.width)))
      else .next (s.raise (.addressRange d.opcode s.pc (s.pc.toNat + 1 + d.width))) := by
  by_cases h : s.pc.toNat + 1 + d.width ≤ 0xFFFF
  · rw [if_pos h, commitRelative, nextPc_of_le h]
  · rw [if_neg h, commitRelative, nextPc_fault_of_gt (Nat.not_le.1 h)]

/-- At the default a candidate byte is absent exactly when its address does not exist (R67). -/
theorem candidate_fault_eq_none (s : State) (k : Nat) :
    candidate .fault s k = none ↔ 0xFFFF < s.pc.toNat + k := by
  by_cases h : s.pc.toNat + k ≤ 0xFFFF
  · simp [candidate, Config.topAddr, h]
  · rw [candidate, Config.topAddr, if_neg h]
    simpa using h

theorem candidate_fault_of_le {s : State} {k : Nat} (h : s.pc.toNat + k ≤ 0xFFFF) :
    candidate .fault s k = some (s.mem.load (trunc16 (s.pc.toNat + k))) := by
  simp [candidate, Config.topAddr, h]

/-- Everything `withOperands` can do for a width-2 row at the default (R76). -/
theorem withOperands_fault_two {d : Descriptor} (hw : d.width = 2) (s : State)
    (rest : Host.Outcome State Fault Refusal) :
    withOperands .fault d s rest =
      if s.pc.toNat + 2 ≤ 0xFFFF then rest else .next (s.raise (.addressRange d.opcode s.pc 0x10000)) := by
  have hlt := s.pc.isLt
  have h2 : (d.width : Nat) = 2 := by rw [hw]; rfl
  unfold withOperands
  rw [h2, absentOperand_two]
  simp only [candidate_fault_eq_none]
  by_cases h : s.pc.toNat + 2 ≤ 0xFFFF
  · rw [if_neg (by omega), if_neg (by omega), if_pos h]
  · rw [if_neg h]
    by_cases h1 : 0xFFFF < s.pc.toNat + 1
    · rw [if_pos h1]
      have : s.pc.toNat + 1 = 0x10000 := by omega
      simp [this]
    · rw [if_neg h1, if_pos (by omega)]
      have : s.pc.toNat + 2 = 0x10000 := by omega
      simp [this]

/-- What a cycle that raises or commits leaves: RUNNING or the start state with the record (R79, R100). -/
def CommitsOrRaises (op : Byte) (s : State) (o : Host.Outcome State Fault Refusal) : Prop :=
  ∃ t, o = .next t ∧ (t.fsm = s.fsm ∨ ∃ addr, t = s.raise (.addressRange op s.pc addr))

theorem commitRelative_commitsOrRaises (p : PcOverflow) (d : Descriptor) (s s' : State) (h : s'.fsm = s.fsm) :
    CommitsOrRaises d.opcode s (commitRelative p d s s') := by
  unfold commitRelative
  split
  · exact ⟨_, rfl, .inl h⟩
  · exact ⟨_, rfl, .inr ⟨_, rfl⟩⟩

theorem withOperands_commitsOrRaises (p : PcOverflow) (d : Descriptor) (s : State)
    {rest : Host.Outcome State Fault Refusal} (h : CommitsOrRaises d.opcode s rest) :
    CommitsOrRaises d.opcode s (withOperands p d s rest) := by
  unfold withOperands
  split
  · exact ⟨_, rfl, .inr ⟨_, rfl⟩⟩
  · exact h

/-- An instruction always answers a next state: it commits or it raises (R70, R79, R100). -/
theorem exec_commitsOrRaises (i : Instr) (s : State) : CommitsOrRaises i.descriptor.opcode s (exec i s) := by
  cases i with
  | nop => exact commitRelative_commitsOrRaises _ _ _ _ rfl
  | jpA16 target => exact withOperands_commitsOrRaises _ _ _ ⟨_, rfl, .inl rfl⟩
  | xorA => exact commitRelative_commitsOrRaises _ _ _ _ (by simp)
  | ldHlD16 v => exact withOperands_commitsOrRaises _ _ _ (commitRelative_commitsOrRaises _ _ _ _ (by simp))

end Sys2Proof.Machine
end

