-- ==== Sys2Proof/Laws/PerInstr.lean ====
section
/-! SUPPORT. Statements about every instruction as written, one lemma per constructor (LAWS.json names the family). -/

namespace Sys2Proof.Laws.EncodingShape

/-- The encoding of an instruction has the form of R55 to R57: its row's opcode first, `1 + w` bytes in all with the
row's own `w`, and it is a byte sequence that R56's table of formats admits; and the instruction is well formed. -/
def Statement (i : Instr) : Prop :=
  (encode i).head? = some i.descriptor.opcode ∧ (encode i).length = i.length ∧
    (i.descriptor.width : Nat) = i.width ∧ lookup i.descriptor.opcode = some i.descriptor ∧
    wellFormedBytes (encode i) = true ∧ i.wellFormed = true

theorem nop : Statement .nop := ⟨rfl, rfl, rfl, rfl, rfl, rfl⟩

theorem jpA16 (target : Word) : Statement (.jpA16 target) := ⟨rfl, rfl, rfl, rfl, rfl, rfl⟩

theorem xorA : Statement .xorA := ⟨rfl, rfl, rfl, rfl, rfl, rfl⟩

theorem ldHlD16 (v : Word) : Statement (.ldHlD16 v) := ⟨rfl, rfl, rfl, rfl, rfl, rfl⟩

end Sys2Proof.Laws.EncodingShape
end

