-- ==== Sys2Proof/Laws/Step.lean ====
section
/-! SUPPORT. What a step can do, once: where a next state comes from, and where there is none. -/

namespace Sys2Proof.Machine

/-- A step answers a next state only from RUNNING: by an error of fetch and decode, or by the decoded instruction. -/
theorem step_eq_next {s t : State} (h : step s = .next t) :
    s.fsm = .running ∧
      ((∃ e, fetchDecode s = .error e ∧ t = s.raise e) ∨ ∃ i, fetchDecode s = .ok i ∧ exec i s = .next t) := by
  unfold step at h
  split at h
  · cases h
  · next hr =>
    refine ⟨hr, ?_⟩
    split at h
    · next i hi => exact .inr ⟨i, hi, h⟩
    · next e he =>
      cases h
      exact .inl ⟨e, he, rfl⟩

/-- An error of fetch and decode names the byte at PC and PC itself (R75, R76). -/
theorem fetchDecode_eq_error {s : State} {e : CoreError} (h : fetchDecode s = .error e) :
    e = .unsupportedOpcode (s.mem.load s.pc) s.pc ∨
      ∃ k, e = .addressRange (s.mem.load s.pc) s.pc (s.pc.toNat + k) := by
  unfold fetchDecode at h
  split at h
  · cases h
  · next e' hd =>
    cases h
    unfold decode at hd
    split at hd
    · cases hd; exact .inl rfl
    · split at hd
      · next k _ => cases hd; exact .inr ⟨k, rfl⟩
      · cases hd

/-- Decoding gives an instruction of the opcode's own row (R62, R75). -/
theorem decode_descriptor {op : Byte} {b1 b2 : Option Byte} {i : Instr} (h : decode op b1 b2 = .ok i) :
    lookup op = some i.descriptor := by
  unfold decode at h
  split at h
  · cases h
  · next d hd =>
    rw [hd]
    split at h
    · cases h
    · cases h
      rcases lookup_eq_some.1 hd with ⟨_, rfl⟩ | ⟨_, rfl⟩ | ⟨_, rfl⟩ | ⟨_, rfl⟩ <;> rfl

/-- The decoded instruction's opcode is the byte at PC. -/
theorem fetchDecode_opcode {s : State} {i : Instr} (h : fetchDecode s = .ok i) :
    i.descriptor.opcode = s.mem.load s.pc := by
  unfold fetchDecode at h
  split at h
  · next j hd =>
    cases h
    have := decode_descriptor hd
    rcases lookup_eq_some.1 this with ⟨h1, h2⟩ | ⟨h1, h2⟩ | ⟨h1, h2⟩ | ⟨h1, h2⟩ <;> rw [h2, h1] <;> rfl
  · cases h

/-- A run of no step is the state it starts from (R85). -/
theorem core_run_zero (s : State) : Sys2Proof.core.run 0 s = .next s := rfl

/-- A run of `n + 1` steps is a step and a run of `n` (R85). -/
theorem core_run_succ (n : Nat) (s : State) :
    Sys2Proof.core.run (n + 1) s =
      match step s with
      | .next t => Sys2Proof.core.run n t
      | .fault r => .fault r
      | .refused r => .refused r := by
  cases h : step s <;> simp only [Host.Core.run, show Sys2Proof.core.step s = _ from h]

/-- The induction over a run, once: a relation that is reflexive and that a step extends holds between the ends of every
run. -/
theorem run_induction {P : State → State → Prop} (refl : ∀ s, P s s)
    (head : ∀ s u t, step s = .next u → P u t → P s t) :
    ∀ (n : Nat) (s t : State), Sys2Proof.core.run n s = .next t → P s t := by
  intro n
  induction n with
  | zero =>
    intro s t h
    cases h
    exact refl s
  | succ n ih =>
    intro s t h
    rw [core_run_succ] at h
    split at h
    · next u hu => exact head s u t hu (ih u t h)
    · cases h
    · cases h

/-- A step of a run is a step of its state, counted (R118). -/
theorem Run.step_eq_next {r u : Run} (h : r.step = .next u) :
    Machine.step r.state = .next u.state ∧ u.steps = r.steps + 1 := by
  unfold Run.step at h
  split at h
  · next t ht => cases h; exact ⟨ht, rfl⟩
  · cases h
  · cases h

end Sys2Proof.Machine
end

