-- ==== Sys2Proof/Tests/Slice0.lean ====
section
/-! SUPPORT. The model's own tests. Expected results are the spec's: the encodings of 30_encoding.md and opcode_table.json,
the vectors of 95_test_vectors.md (named by their section), the worked examples of the instruction rules. After them the
witnesses: states and operands that meet the hypotheses of the statements, clause by clause, at the edges. -/

namespace Sys2Proof.Tests

open Sys2Proof.Machine Sys2Proof.Safety

/-- Reset's registers with the bytes in memory from `pc` upwards, and PC there. -/
def stateAt (pc : Nat) (bytes : List Byte) : State :=
  { State.reset with pc := trunc16 pc, mem := Memory.ofBytes pc bytes }

/-- `s` with the flags Z, N, H, C. -/
def withFlags (s : State) (z n h c : Bool) : State := { s with zf := z, nf := n, hf := h, cf := c }

/-- The next state an outcome answers, for comparing. -/
def nextOf (o : Host.Outcome State Fault Refusal) : Option State :=
  match o with
  | .next t => some t
  | .fault _ => none
  | .refused _ => none

/-- The fault an outcome answers. -/
def faultOf (o : Host.Outcome State Fault Refusal) : Option Fault :=
  match o with
  | .next _ => none
  | .fault r => some r
  | .refused _ => none

theorem eq_next_of_nextOf {o : Host.Outcome State Fault Refusal} {t : State} (h : nextOf o = some t) : o = .next t := by
  cases o with
  | next u => cases h; rfl
  | fault r => cases h
  | refused r => cases h

/-! ## WellFormed: each check refuses an ill-formed term -/

theorem test_wellFormedBytes_refuses_unknown_opcode : wellFormedBytes [0xFF#8] = false := by decide
theorem test_wellFormedBytes_refuses_missing_operand : wellFormedBytes [0xC3#8, 0x34#8] = false := by decide
theorem test_wellFormedBytes_refuses_trailing_byte : wellFormedBytes [0x00#8, 0x00#8] = false := by decide
theorem test_fitsAt_refuses_past_the_top : (Instr.jpA16 0x0100#16).fitsAt 0xFFFE#16 = false := by decide
theorem test_fitsAt_admits_the_last_place : (Instr.jpA16 0x0100#16).fitsAt 0xFFFD#16 = true := by decide
theorem test_wellFormed_admits_every_constructor :
    Instr.nop.wellFormed ∧ (Instr.jpA16 0xFFFF#16).wellFormed ∧ Instr.xorA.wellFormed ∧ (Instr.ldHlD16 0#16).wellFormed := by
  decide

/-! ## Decoding, from words written bit by bit (R56, R62) -/

theorem test_decode_nop : decodeBytes [0b00000000#8] = .ok (.nop, []) := by rfl
theorem test_decode_jpA16 : decodeBytes [0b11000011#8, 0b00110100#8, 0b00010010#8] = .ok (.jpA16 0x1234#16, []) := by rfl
theorem test_decode_xorA : decodeBytes [0b10101111#8, 0b11111111#8] = .ok (.xorA, [0xFF#8]) := by rfl
/-- `LD HL,0x1234` is `21 34 12` (R68). -/
theorem test_decode_ldHlD16 : decodeBytes [0b00100001#8, 0b00110100#8, 0b00010010#8] = .ok (.ldHlD16 0x1234#16, []) := by rfl
theorem test_encode_ldHlD16 : encode (.ldHlD16 0x1234#16) = [0x21#8, 0x34#8, 0x12#8] := by decide
theorem test_decode_truncated : decodeBytes [0xC3#8, 0x34#8] = .error (.notDecoded (.absentOperand 0xC3#8 2)) := by rfl
theorem test_decode_empty : decodeBytes [] = .error .noOpcode := by rfl
/-- The one-bit neighbours of the four opcodes, and the bytes the list names (95, section 2.1). -/
theorem test_decode_neighbours_unsupported :
    ∀ op ∈ [0x01#8, 0x02#8, 0x04#8, 0x08#8, 0x10#8, 0x20#8, 0x40#8, 0x80#8, 0x23#8, 0x25#8, 0x29#8, 0x31#8, 0x61#8, 0xA1#8,
      0xAE#8, 0xAD#8, 0xAB#8, 0xA7#8, 0xBF#8, 0x8F#8, 0xEF#8, 0x2F#8, 0xC2#8, 0xC1#8, 0xC7#8, 0xCB#8, 0xD3#8, 0xE3#8, 0x83#8,
      0x43#8, 0xFF#8, 0x76#8], lookup op = none := by decide
theorem test_format_of_rows :
    descNop.format = .op ∧ descXorA.format = .op ∧ descJpA16.format = .opImm16 ∧ descLdHlD16.format = .opImm16 := by decide

/-! ## Operations (95, sections 2.2, 2.3, 2.6) -/

theorem test_set16_AF : (State.reset.set16 .AF 0x12FF#16).get16 .AF = 0x12F0#16 := by decide
theorem test_set16_BC : (State.reset.set16 .BC 0xABCD#16).b = 0xAB#8 ∧ (State.reset.set16 .BC 0xABCD#16).c = 0xCD#8 := by decide
theorem test_setFlags_masked :
    ((withFlags State.reset true true true true).setFlags ⟨true, false, false, false⟩ noFlags).getFlags =
      ⟨false, true, true, true⟩ := by decide
theorem test_getF : (withFlags State.reset true false false false).getF = 0x80#8 := by decide
theorem test_set8_truncates : (State.reset.set8 .A (trunc8 0x1FF)).a = 0xFF#8 := by decide
theorem test_loadWord_top : (Memory.ofBytes 0xFFFE [0xCD#8, 0xAB#8]).loadWord 0xFFFE#16 = some 0xABCD#16 := by decide
/-- At 0xFFFF the unit does not define the word (R44, log 7). -/
theorem test_loadWord_undefined : Memory.loadWord [] 0xFFFF#16 = none := by decide
theorem test_store_load : (Memory.store [] 0x8000#16 0x55#8).load 0x8000#16 = 0x55#8 := by decide
theorem test_store_zero_removes : (Memory.store [(0x8000, 0x55#8)] 0x8000#16 0x00#8) = [] := by decide
theorem test_alu_xor_different : alu .xor 0xF0#8 0x0F#8 = ⟨0xFF#8, allFlags, noFlags⟩ := by decide

/-! ## One step of each instruction (95, sections 2.4 to 2.7) -/

theorem test_nop_advances :
    nextOf (step (withFlags (stateAt 0x0100 [0x00#8]) true true true true)) =
      some { withFlags (stateAt 0x0100 [0x00#8]) true true true true with pc := 0x0101#16 } := by decide
theorem test_nop_at_top :
    (nextOf (step (withFlags (stateAt 0xFFFF [0x00#8]) false true true false))).map (fun t => (t.pc, t.getFlags, t.fsm)) =
      some (0xFFFF#16, ⟨false, true, true, false⟩, .halted (.addressRange 0x00#8 0xFFFF#16 0x10000)) := by decide
theorem test_jp_last_place :
    (nextOf (step (stateAt 0xFFFD [0xC3#8, 0x00#8, 0x01#8]))).map (fun t => (t.pc, t.fsm)) = some (0x0100#16, .running) := by decide
theorem test_jp_operand_past_top :
    (nextOf (step (stateAt 0xFFFE [0xC3#8, 0x00#8]))).map (fun t => (t.pc, t.fsm)) =
      some (0xFFFE#16, .halted (.addressRange 0xC3#8 0xFFFE#16 0x10000)) := by decide
theorem test_xorA_clears :
    (nextOf (step { withFlags (stateAt 0x0100 [0xAF#8]) false true true true with a := 0x5A#8 })).map
      (fun t => (t.a, t.getFlags, t.pc)) = some (0x00#8, ⟨true, false, false, false⟩, 0x0101#16) := by decide
theorem test_xorA_at_top :
    (nextOf (step { withFlags (stateAt 0xFFFF [0xAF#8]) false true true true with a := 0x5A#8 })).map
      (fun t => (t.a, t.getFlags, t.fsm)) =
      some (0x5A#8, ⟨false, true, true, true⟩, .halted (.addressRange 0xAF#8 0xFFFF#16 0x10000)) := by decide
/-- L1-E6. -/
theorem test_ldHlD16_loads :
    (nextOf (step (withFlags (stateAt 0x0100 [0x21#8, 0xCD#8, 0xAB#8]) true false true false))).map
      (fun t => (t.h, t.l, t.getFlags, t.pc)) = some (0xAB#8, 0xCD#8, ⟨true, false, true, false⟩, 0x0103#16) := by decide
/-- P3, step 2: H and L are not written. -/
theorem test_ldHlD16_next_pc_past_top :
    (nextOf (step (stateAt 0xFFFD [0x21#8, 0x34#8, 0x12#8]))).map (fun t => (t.h, t.l, t.fsm)) =
      some (0x00#8, 0x00#8, .halted (.addressRange 0x21#8 0xFFFD#16 0x10000)) := by decide

/-! ## Errors and the alternative parameter (95, sections 2.4, 2.8, P3) -/

theorem test_unsupported_commits_nothing :
    (nextOf (step { stateAt 0x0200 [0x76#8] with a := 0x77#8 })).map (fun t => (t.a, t.pc, t.fsm)) =
      some (0x77#8, 0x0200#16, .halted (.unsupportedOpcode 0x76#8 0x0200#16)) := by decide
theorem test_unsupported_before_range :
    (nextOf (step (stateAt 0xFFFF [0xFF#8]))).map State.fsm =
      some (.halted (.unsupportedOpcode 0xFF#8 0xFFFF#16)) := by decide
theorem test_halted_has_no_successor :
    faultOf (step (State.reset.raise (.unsupportedOpcode 0xFF#8 0x0100#16))) =
      some (.haltedOnError (.unsupportedOpcode 0xFF#8 0x0100#16)) := by decide
theorem test_wrap_nop : ((cycle .wrap (stateAt 0xFFFF [0x00#8])).pc, (cycle .wrap (stateAt 0xFFFF [0x00#8])).fsm) =
    (0x0000#16, .running) := by decide
theorem test_wrap_ldHlD16 :
    (cycle .wrap (stateAt 0xFFFD [0x21#8, 0x34#8, 0x12#8])).get16 .HL = 0x1234#16 ∧
      (cycle .wrap (stateAt 0xFFFD [0x21#8, 0x34#8, 0x12#8])).pc = 0x0000#16 := by decide

/-! ## Reset (R114): before the first step, after a halt, not in mid-run -/

theorem test_reset_refused_in_mid_run : (Run.mk (stateAt 0x0102 [0xAF#8]) 1).resetEvent = none := by decide
theorem test_reset_after_halt :
    (Run.mk ({ stateAt 0x0100 [0xFF#8] with a := 0x77#8 }.raise (.unsupportedOpcode 0xFF#8 0x0100#16)) 1).resetEvent =
      some ⟨{ State.reset with mem := [(0x0100, 0xFF#8)] }, 0⟩ := by decide

/-! ## Witnesses of the statements' hypotheses -/

/-- A run of two steps and its end, for the statements about runs: XOR A and NOP at 0x0100. -/
def twoSteps : State := stateAt 0x0100 [0xAF#8, 0x00#8]

theorem witness_StackPointerIsUntouched_exec :
    exec .xorA twoSteps = .next { twoSteps with a := 0x00#8, zf := true, pc := 0x0101#16 } := eq_next_of_nextOf (by decide)
theorem witness_StackPointerIsUntouched_run :
    boot (some [0x00#8]) = .ok State.reset ∧
      Sys2Proof.core.run 1 State.reset = .next { State.reset with pc := 0x0101#16 } :=
  ⟨rfl, eq_next_of_nextOf (by decide)⟩

theorem witness_BootLoadsImageAndResets_fits : [0x21#8, 0x34#8].length ≤ 65536 := by decide
theorem witness_BootLoadsImageAndResets_fills : (List.replicate 65536 0x00#8).length ≤ 65536 := by
  rw [List.length_replicate]
theorem witness_BootLoadsImageAndResets_tooLong : 65536 < (List.replicate 65537 0x00#8).length := by
  rw [List.length_replicate]; omega

/-- Before the first step, after a halt, and in mid-run. -/
theorem witness_ResetEventKeepsMemory :
    (Run.mk twoSteps 0).steps = 0 ∧
      (Run.mk (State.reset.raise (.unsupportedOpcode 0xFF#8 0x0100#16)) 1).state.fsm =
        .halted (.unsupportedOpcode 0xFF#8 0x0100#16) ∧
      (Run.mk twoSteps 1).steps ≠ 0 ∧ (Run.mk twoSteps 1).state.fsm = .running := by decide

theorem witness_ResetMeetsInvariant : boot (some [0x21#8]) = .ok { State.reset with mem := [(0, 0x21#8)] } := by rfl

theorem witness_StepKeepsInvariant_running :
    Inv twoSteps ∧ step twoSteps = .next { twoSteps with a := 0x00#8, zf := true, pc := 0x0101#16 } :=
  ⟨⟨by decide, by decide⟩, eq_next_of_nextOf (by decide)⟩
theorem witness_StepKeepsInvariant_halting :
    Inv (stateAt 0xFFFF [0xFF#8]) ∧
      step (stateAt 0xFFFF [0xFF#8]) = .next ((stateAt 0xFFFF [0xFF#8]).raise (.unsupportedOpcode 0xFF#8 0xFFFF#16)) :=
  ⟨⟨by decide, by decide⟩, eq_next_of_nextOf (by decide)⟩

theorem witness_StoreWritesOneByte :
    twoSteps.mem.wf = true ∧
      exec (.ldHlD16 0x1234#16) twoSteps = .next { twoSteps with h := 0x12#8, l := 0x34#8, pc := 0x0103#16 } :=
  ⟨by decide, eq_next_of_nextOf (by decide)⟩
theorem witness_LoadWordIsLittleEndian : (0xFFFE#16).toNat ≤ 0xFFFE := by decide
theorem witness_MemoriesReadingAlikeAreEqual :
    Memory.wf [(0x0100, 0xAF#8)] = true ∧ (Memory.store [] 0x0100#16 0xAF#8).wf = true ∧
      ∀ addr : Word, Memory.load [(0x0100, 0xAF#8)] addr = (Memory.store [] 0x0100#16 0xAF#8).load addr :=
  ⟨by decide, by decide, fun _ => rfl⟩
theorem witness_StoreIsSeenByNextFetch : (stateAt 0xFFFF [0x00#8]).mem.wf = true := by decide
theorem witness_MemoryNeverChanges :
    Sys2Proof.core.run 2 twoSteps = .next { twoSteps with a := 0x00#8, zf := true, pc := 0x0102#16 } :=
  eq_next_of_nextOf (by decide)

theorem witness_DecodeOfEncodeIsTheInstruction : (Instr.jpA16 0xFFFF#16).wellFormed = true := by decide
theorem witness_EncodeOfDecodeIsTheBytes :
    decodeBytes [0x21#8, 0x34#8, 0x12#8, 0xAF#8] = .ok (.ldHlD16 0x1234#16, [0xAF#8]) := by rfl
theorem witness_OpcodeByteFixesLength : decode 0xC3#8 (some 0xFF#8) (some 0xFF#8) = .ok (.jpA16 0xFFFF#16) := by rfl
theorem witness_UnsupportedBytesHalt :
    (stateAt 0xFFFF [0xCB#8]).fsm = .running ∧
      lookup ((stateAt 0xFFFF [0xCB#8]).mem.load (stateAt 0xFFFF [0xCB#8]).pc) = none := by decide
theorem witness_CandidatesAreReadOrAbsent :
    (0xC3#8 = 0xC3#8 ∨ (0xC3#8 : Byte) = 0x21#8) ∧ candidate .fault (stateAt 0xFFFE [0xC3#8, 0x34#8]) 1 = some 0x34#8 ∧
      candidate .fault (stateAt 0xFFFE [0xC3#8, 0x34#8]) 2 = none := by decide

theorem witness_NopAdvancesPcOnly :
    (stateAt 0xFFFE []).pc ≠ 0xFFFF#16 ∧ (stateAt 0xFFFF []).pc = 0xFFFF#16 := by decide
theorem witness_JumpSetsPcOnly :
    (stateAt 0xFFFD []).pc.toNat ≤ 0xFFFD ∧ (stateAt 0xFFFE []).pc = 0xFFFE#16 ∧ (stateAt 0xFFFF []).pc = 0xFFFF#16 := by
  decide
theorem witness_XorAClearsAccumulator :
    (stateAt 0xFFFE []).pc ≠ 0xFFFF#16 ∧ (stateAt 0xFFFF []).pc = 0xFFFF#16 := by decide
theorem witness_LoadHLSetsPair :
    (stateAt 0xFFFC []).pc.toNat ≤ 0xFFFC ∧ (stateAt 0xFFFD []).pc = 0xFFFD#16 ∧ (stateAt 0xFFFE []).pc = 0xFFFE#16 ∧
      (stateAt 0xFFFF []).pc = 0xFFFF#16 := by decide

theorem witness_FrameOfNopAndJump_nop :
    exec .nop (stateAt 0xFFFE []) = .next { stateAt 0xFFFE [] with pc := 0xFFFF#16 } := eq_next_of_nextOf (by decide)
theorem witness_FrameOfNopAndJump_jump :
    exec (.jpA16 0x1234#16) (stateAt 0xFFFE []) =
      .next ((stateAt 0xFFFE []).raise (.addressRange 0xC3#8 0xFFFE#16 0x10000)) := eq_next_of_nextOf (by decide)
theorem witness_FrameOfXorA_error :
    exec .xorA (stateAt 0xFFFF []) = .next ((stateAt 0xFFFF []).raise (.addressRange 0xAF#8 0xFFFF#16 0x10000)) :=
  eq_next_of_nextOf (by decide)
theorem witness_FrameOfLoadHL_error :
    exec (.ldHlD16 0x1234#16) (stateAt 0xFFFD []) =
      .next ((stateAt 0xFFFD []).raise (.addressRange 0x21#8 0xFFFD#16 0x10000)) := eq_next_of_nextOf (by decide)
theorem witness_OnlyXorAWritesFlags :
    exec .nop twoSteps = .next { twoSteps with pc := 0x0101#16 } ∧ Instr.nop ≠ .xorA ∧ twoSteps.pc ≠ 0xFFFF#16 :=
  ⟨eq_next_of_nextOf (by decide), by decide, by decide⟩

theorem witness_StepRunsDecodedInstruction :
    (stateAt 0xFFFD [0xC3#8, 0x34#8, 0x12#8]).fsm = .running ∧
      decode ((stateAt 0xFFFD [0xC3#8, 0x34#8, 0x12#8]).mem.load 0xFFFD#16)
          (candidate Config.pcOverflow (stateAt 0xFFFD [0xC3#8, 0x34#8, 0x12#8]) 1)
          (candidate Config.pcOverflow (stateAt 0xFFFD [0xC3#8, 0x34#8, 0x12#8]) 2) = .ok (.jpA16 0x1234#16) ∧
      (Instr.jpA16 0x1234#16).wellFormed = true := ⟨rfl, rfl, rfl⟩
theorem witness_RunningAlwaysAnswersAState : twoSteps.fsm = .running := by decide
theorem witness_HaltedIsTerminal :
    (State.reset.raise (.addressRange 0x00#8 0xFFFF#16 0x10000)).fsm =
      .halted (.addressRange 0x00#8 0xFFFF#16 0x10000) := by decide
theorem witness_OperandCheckRaises_first :
    (stateAt 0xFFFF [0xC3#8]).fsm = .running ∧
      lookup ((stateAt 0xFFFF [0xC3#8]).mem.load (stateAt 0xFFFF [0xC3#8]).pc) = some descJpA16 ∧
      1 ≤ (descJpA16.width : Nat) ∧ candidate .fault (stateAt 0xFFFF [0xC3#8]) 1 = none := by decide
theorem witness_OperandCheckRaises_second :
    (stateAt 0xFFFE [0x21#8]).fsm = .running ∧
      lookup ((stateAt 0xFFFE [0x21#8]).mem.load (stateAt 0xFFFE [0x21#8]).pc) = some descLdHlD16 ∧
      (descLdHlD16.width : Nat) = 2 ∧ candidate .fault (stateAt 0xFFFE [0x21#8]) 1 ≠ none ∧
      candidate .fault (stateAt 0xFFFE [0x21#8]) 2 = none := by decide
theorem witness_NextPcRule_absolute :
    (stateAt 0xFFFD [0xC3#8]).fsm = .running ∧
      lookup ((stateAt 0xFFFD [0xC3#8]).mem.load (stateAt 0xFFFD [0xC3#8]).pc) = some descJpA16 ∧
      absentOperand descJpA16.width (candidate .fault (stateAt 0xFFFD [0xC3#8]) 1)
        (candidate .fault (stateAt 0xFFFD [0xC3#8]) 2) = none ∧
      descJpA16.pcRule = .absoluteImm16 := by decide
theorem witness_NextPcRule_below :
    (stateAt 0xFFFC [0x21#8]).fsm = .running ∧
      lookup ((stateAt 0xFFFC [0x21#8]).mem.load (stateAt 0xFFFC [0x21#8]).pc) = some descLdHlD16 ∧
      absentOperand descLdHlD16.width (candidate .fault (stateAt 0xFFFC [0x21#8]) 1)
        (candidate .fault (stateAt 0xFFFC [0x21#8]) 2) = none ∧
      descLdHlD16.pcRule = .relative ∧
      (stateAt 0xFFFC [0x21#8]).pc.toNat + 1 + descLdHlD16.width ≤ 0xFFFF := by decide
theorem witness_NextPcRule_past :
    (stateAt 0xFFFD [0x21#8]).fsm = .running ∧
      lookup ((stateAt 0xFFFD [0x21#8]).mem.load (stateAt 0xFFFD [0x21#8]).pc) = some descLdHlD16 ∧
      (∀ p, p = .fault ∨ p = .wrap →
        absentOperand descLdHlD16.width (candidate p (stateAt 0xFFFD [0x21#8]) 1)
          (candidate p (stateAt 0xFFFD [0x21#8]) 2) = none) ∧
      0xFFFF < (stateAt 0xFFFD [0x21#8]).pc.toNat + 1 + descLdHlD16.width :=
  ⟨rfl, rfl, by rintro p (rfl | rfl) <;> rfl, by decide⟩
theorem witness_PcMovesByTheRow_load :
    step (stateAt 0xFFFC [0x21#8, 0xEF#8, 0xBE#8]) =
      .next { stateAt 0xFFFC [0x21#8, 0xEF#8, 0xBE#8] with h := 0xBE#8, l := 0xEF#8, pc := 0xFFFF#16 } :=
  eq_next_of_nextOf (by decide)
theorem witness_StepIsTheWrittenStepFunction :
    (stateAt 0xFFFE [0xAF#8]).fsm = .running ∧
      ((stateAt 0xFFFE [0xAF#8]).raise (.addressRange 0xAF#8 0xFFFF#16 0x10000)).fsm =
        .halted (.addressRange 0xAF#8 0xFFFF#16 0x10000) := by decide
theorem witness_StagesAgreeWithStep : (stateAt 0xFFFF [0xC3#8]).fsm = .running := by decide
theorem witness_WrapDiffersOnlyPastTheTop_supported :
    (stateAt 0xFFFF [0xC3#8]).fsm = .running ∧
      lookup ((stateAt 0xFFFF [0xC3#8]).mem.load (stateAt 0xFFFF [0xC3#8]).pc) ≠ none := by decide
theorem witness_WrapDiffersOnlyPastTheTop_unsupported :
    (stateAt 0xFFFF [0xCB#8]).fsm = .running ∧
      lookup ((stateAt 0xFFFF [0xCB#8]).mem.load (stateAt 0xFFFF [0xCB#8]).pc) = none := by decide
/-- The jump at 0xFFFD and the unsupported byte at 0xFFFF raise no AddressRangeError; at 0xFFFC nothing does. -/
theorem witness_WrapDiffersOnlyPastTheTop_agree :
    (∀ op pc addr, (cycle .fault (stateAt 0xFFFD [0xC3#8])).fsm ≠ .halted (.addressRange op pc addr)) ∧
      (∀ op pc addr, (cycle .fault (stateAt 0xFFFF [0xCB#8])).fsm ≠ .halted (.addressRange op pc addr)) ∧
      (stateAt 0xFFFC [0x21#8]).pc.toNat ≤ 0xFFFC :=
  ⟨fun _ _ _ => by rw [show (cycle .fault (stateAt 0xFFFD [0xC3#8])).fsm = .running by decide]; exact nofun,
    fun _ _ _ => by
      rw [show (cycle .fault (stateAt 0xFFFF [0xCB#8])).fsm = .halted (.unsupportedOpcode 0xCB#8 0xFFFF#16) by decide]
      exact nofun,
    by decide⟩
theorem witness_BoundedRunIsTheHostRun :
    Sys2Proof.core.run 2 twoSteps = .next { twoSteps with a := 0x00#8, zf := true, pc := 0x0102#16 } :=
  eq_next_of_nextOf (by decide)
theorem witness_DataNeverSteersControl :
    twoSteps.pc = { twoSteps with a := 0x5A#8, sp := 0xFFFE#16, cf := true }.pc ∧
      Sys2Proof.core.run 1 twoSteps = .next { twoSteps with a := 0x00#8, zf := true, pc := 0x0101#16 } :=
  ⟨rfl, eq_next_of_nextOf (by decide)⟩
theorem witness_ZeroMemoryRunsNopsToTheTop_any :
    State.reset.fsm = .running ∧
      (∀ addr : Word, State.reset.pc.toNat ≤ addr.toNat → State.reset.mem.load addr = 0x00#8) ∧
      State.reset.pc.toNat + 0xFEFF = 0xFFFF ∧ State.reset.pc.toNat + 0xFF00 = 0x10000 :=
  ⟨rfl, fun _ _ => rfl, by decide, by decide⟩
theorem witness_ZeroMemoryRunsNopsToTheTop_image :
    [0xFF#8].length < 0x0101 ∧ boot (some [0xFF#8]) = .ok { State.reset with mem := [(0, 0xFF#8)] } := ⟨by decide, rfl⟩
theorem witness_PlacedWordIsRunNext_fits :
    (stateAt 0xFFFD []).mem.wf = true ∧ (stateAt 0xFFFD []).fsm = .running ∧
      decodeTableWord 24 0x1234C3 = some (.jpA16 0x1234#16) ∧
      (Instr.jpA16 0x1234#16).fitsAt (stateAt 0xFFFD []).pc = true := by decide
/-- A one-byte instruction in the last place. -/
theorem witness_PlacedWordIsRunNext_top :
    (stateAt 0xFFFF []).mem.wf = true ∧ (stateAt 0xFFFF []).fsm = .running ∧
      decodeTableWord 8 0xAF = some .xorA ∧ Instr.xorA.fitsAt (stateAt 0xFFFF []).pc = true := by decide
/-- A jump whose operand bytes have no place: only the second clause speaks of it. -/
theorem witness_PlacedWordIsRunNext_doesNotFit :
    (stateAt 0xFFFE []).mem.wf = true ∧ (stateAt 0xFFFE []).fsm = .running ∧
      decodeTableWord 24 0x1234C3 = some (.jpA16 0x1234#16) ∧
      (Instr.jpA16 0x1234#16).fitsAt (stateAt 0xFFFE []).pc = false := by decide

theorem witness_OutputsReportTheHalt :
    (State.reset.raise (.unsupportedOpcode 0xFF#8 0x0100#16)).error = some (.unsupportedOpcode 0xFF#8 0x0100#16) ∧
      State.reset.error = none := by decide
theorem witness_ErrorCommitsNothing :
    step (stateAt 0x0100 [0xFF#8]) = .next ((stateAt 0x0100 [0xFF#8]).raise (.unsupportedOpcode 0xFF#8 0x0100#16)) :=
  eq_next_of_nextOf (by decide)
theorem witness_UnsupportedOpcodeErrorExactly :
    (stateAt 0x0100 [0xFF#8]).fsm = .running ∧
      step (stateAt 0x0100 [0xFF#8]) = .next ((stateAt 0x0100 [0xFF#8]).raise (.unsupportedOpcode 0xFF#8 0x0100#16)) :=
  ⟨by decide, eq_next_of_nextOf (by decide)⟩
theorem witness_AddressRangeErrorExactly :
    (stateAt 0xFFFD [0x21#8]).fsm = .running ∧
      step (stateAt 0xFFFD [0x21#8]) =
        .next ((stateAt 0xFFFD [0x21#8]).raise (.addressRange 0x21#8 0xFFFD#16 0x10000)) :=
  ⟨by decide, eq_next_of_nextOf (by decide)⟩

/-- The next run an outcome answers, for comparing. -/
def nextRunOf (o : Host.Outcome Run Fault Refusal) : Option Run :=
  match o with
  | .next r => some r
  | .fault _ => none
  | .refused _ => none

/-- A fresh run, a run in mid-run, and one that has halted. -/
theorem witness_ResetOnlyAtTheEndsOfARun_midRun :
    boot (some []) = .ok State.reset ∧ nextRunOf (Run.advance 0 ⟨State.reset, 0⟩) = some ⟨State.reset, 0⟩ ∧
      nextRunOf (Run.advance 1 ⟨State.reset, 0⟩) = some ⟨{ State.reset with pc := 0x0101#16 }, 1⟩ ∧
      State.halted { State.reset with pc := 0x0101#16 } = false := ⟨rfl, by decide, by decide, by decide⟩
theorem witness_ResetOnlyAtTheEndsOfARun_halted :
    boot (some (List.replicate 0x0100 Memory.unlisted ++ [0xFF#8])) = .ok (stateAt 0x0100 [0xFF#8]) ∧
      nextRunOf (Run.advance 1 ⟨stateAt 0x0100 [0xFF#8], 0⟩) =
        some ⟨(stateAt 0x0100 [0xFF#8]).raise (.unsupportedOpcode 0xFF#8 0x0100#16), 1⟩ := ⟨by
    rw [boot, if_pos (by rw [List.length_append, List.length_replicate]; decide), Memory.ofBytes_replicate_append]
    rfl, by decide⟩

end Sys2Proof.Tests
end

/-! SUPPORT. Reading rules of the register file and the flags (R19, R20, R23), and everything an instruction can do, once:
it commits its own state, or an address it needs lies past the top and it raises (R78, R86, R87, R91, R93). -/

namespace Sys2Proof.Machine

/-! The register file under `set8`, and the flags under each update. -/

@[simp] theorem State.get8_set8_same (s : State) (r : Reg8) (v : Byte) : (s.set8 r v).get8 r = v := by
  cases r <;> rfl

theorem State.get8_set8_of_ne (s : State) {r r' : Reg8} (v : Byte) (h : r' ≠ r) : (s.set8 r v).get8 r' = s.get8 r' := by
  cases r' <;> simp [State.get8, h.symm]

@[simp] theorem State.set8_getFlags (s : State) (r : Reg8) (v : Byte) : (s.set8 r v).getFlags = s.getFlags := by
  simp [State.getFlags]

@[simp] theorem State.setPC_getFlags (s : State) (v : Word) : (s.setPC v).getFlags = s.getFlags := rfl

@[simp] theorem State.set16_HL_getFlags (s : State) (v : Word) : (s.set16 .HL v).getFlags = s.getFlags := rfl

@[simp] theorem State.raise_getFlags (s : State) (err : CoreError) : (s.raise err).getFlags = s.getFlags := rfl

/-! Addresses: the truncated sum is the sum of words. -/

theorem trunc16_toNat_add (x : Word) (k : Nat) : trunc16 (x.toNat + k) = x + BitVec.ofNat 16 k := by
  simp [trunc16, BitVec.ofNat_add]

theorem toNat_trunc16_of_le {n : Nat} (h : n ≤ 0xFFFF) : (trunc16 n).toNat = n :=
  Nat.mod_eq_of_lt (Nat.lt_succ_of_le h)

/-! What an instruction can do. -/

/-- The offset from PC of the highest address an instruction needs: its last operand byte, or the next PC where PC
advances (R76, R78). -/
def reach : Instr → Nat
  | .nop => 1
  | .jpA16 _ => 2
  | .xorA => 1
  | .ldHlD16 _ => 3

/-- The state an instruction ends in when it raises nothing (R86, R87, R91, R93). -/
def committed : Instr → State → State
  | .nop, s => s.setPC (trunc16 (s.pc.toNat + 1))
  | .jpA16 target, s => s.setPC target
  | .xorA, s =>
    ((s.set8 .A 0x00#8).setFlags allFlags ⟨true, false, false, false⟩).setPC (trunc16 (s.pc.toNat + 1))
  | .ldHlD16 v, s => (s.set16 .HL v).setPC (trunc16 (s.pc.toNat + 3))

/-- A relative commit of a row of width `w` whose operand bytes all have an address: the one address that can be missing
is the next PC, and it is then 0x10000 (R78, R97). -/
theorem commitRelative_of_operands {d : Descriptor} {w : Nat} (hw : (d.width : Nat) = w) {s : State} (s' : State)
    (h : s.pc.toNat + w ≤ 0xFFFF) :
    commitRelative Config.pcOverflow d s s' =
      .next (if s.pc.toNat + (w + 1) ≤ 0xFFFF then s'.setPC (trunc16 (s.pc.toNat + (w + 1)))
        else s.raise (.addressRange d.opcode s.pc 0x10000)) := by
  have hsum : s.pc.toNat + 1 + w = s.pc.toNat + (w + 1) := by omega
  rw [Config.pcOverflow, commitRelative_fault, hw, hsum]
  split
  · rfl
  · have : s.pc.toNat + (w + 1) = 0x10000 := by omega
    rw [this]

/-- The ALU's XOR of a byte with itself (R89, R91). -/
theorem alu_xor_self (a : Byte) : alu .xor a a = ⟨0x00#8, allFlags, ⟨true, false, false, false⟩⟩ := by
  simp [alu]

/-- Everything an instruction can do: commit its state, or raise AddressRangeError at 0x10000 on the start state. -/
theorem exec_eq (i : Instr) (s : State) :
    exec i s = .next (if s.pc.toNat + reach i ≤ 0xFFFF then committed i s
      else s.raise (.addressRange i.descriptor.opcode s.pc 0x10000)) := by
  have hpc : s.pc.toNat + 0 ≤ 0xFFFF := Nat.le_of_lt_succ s.pc.isLt
  cases i with
  | nop => exact commitRelative_of_operands rfl s hpc
  | jpA16 target =>
    refine (withOperands_fault_two rfl s _).trans ?_
    exact (apply_ite Host.Outcome.next _ _ _).symm
  | xorA =>
    rw [exec, execXorA, alu_xor_self]
    exact commitRelative_of_operands rfl _ hpc
  | ldHlD16 v =>
    refine (withOperands_fault_two rfl s _).trans ?_
    split
    · next h => exact commitRelative_of_operands rfl _ h
    · next h => rw [if_neg (by rw [reach]; omega)]; rfl

/-- An instruction that ends in RUNNING has committed its state, with every address it needs there (R79, R100). -/
theorem exec_eq_next_running {i : Instr} {s t : State} (h : exec i s = .next t) (hr : t.fsm = .running) :
    s.pc.toNat + reach i ≤ 0xFFFF ∧ t = committed i s := by
  rw [exec_eq] at h
  cases h
  split at hr
  · next hfit => exact ⟨hfit, if_pos hfit⟩
  · cases hr

/-! What fetch and decode can answer. -/

/-- Decoding answers the instruction of the opcode's row with the candidates' immediate, and only where no operand byte
of the row is absent (R61, R75, R76). -/
theorem decode_eq_ok {op : Byte} {b1 b2 : Option Byte} {i : Instr} (h : decode op b1 b2 = .ok i) :
    ∃ d, lookup op = some d ∧ absentOperand d.width b1 b2 = none ∧
      i = instrOf d.mnemonic (imm16 (b1.getD 0) (b2.getD 0)) := by
  unfold decode at h
  split at h
  · cases h
  · next d hd =>
    split at h
    · cases h
    · next hab =>
      cases h
      exact ⟨d, hd, hab, rfl⟩

/-- Fetch and decode answer an instruction only as the decoder does. -/
theorem fetchDecode_eq_ok {s : State} {i : Instr} (h : fetchDecode s = .ok i) :
    decode (s.mem.load s.pc) (candidate Config.pcOverflow s 1) (candidate Config.pcOverflow s 2) = .ok i := by
  unfold fetchDecode at h
  split at h
  · next hd => cases h; exact hd
  · cases h

/-- At the default a candidate whose address exists is the byte at `PC + k` (R67). -/
theorem candidate_fault_eq_load {s : State} {k : Nat} (h : s.pc.toNat + k ≤ 0xFFFF) :
    candidate .fault s k = some (s.mem.load (s.pc + BitVec.ofNat 16 k)) := by
  rw [candidate_fault_of_le h, trunc16_toNat_add]

/-- The target of a fetched jump is the immediate of the two bytes after the opcode (R58, R74), if they are there. -/
theorem fetchDecode_jpA16_target {s : State} {target : Word} (h : fetchDecode s = .ok (.jpA16 target))
    (hfit : s.pc.toNat + 2 ≤ 0xFFFF) : target = imm16 (s.mem.load (s.pc + 1)) (s.mem.load (s.pc + 2)) := by
  obtain ⟨d, hd, -, hi⟩ := decode_eq_ok (fetchDecode_eq_ok h)
  rw [Config.pcOverflow, candidate_fault_eq_load hfit, candidate_fault_eq_load (k := 1) (by omega)] at hi
  obtain ⟨-, rfl⟩ | ⟨-, rfl⟩ | ⟨-, rfl⟩ | ⟨-, rfl⟩ := lookup_eq_some.1 hd
  · cases hi
  · exact Instr.jpA16.inj hi
  · cases hi
  · cases hi

end Sys2Proof.Machine

/-! PROOFS. The statements about the state: 8-bit writes, masked flag writes, who writes flags, how PC moves. -/

namespace Sys2Proof.Proofs

open Sys2Proof.Machine

/-! What the committed state of an instruction does to the flags (R25). -/

theorem committed_getFlags {i : Instr} (s : State) (h : i ≠ .xorA) : (committed i s).getFlags = s.getFlags := by
  cases i with
  | nop => exact State.setPC_getFlags _ _
  | jpA16 target => exact State.setPC_getFlags _ _
  | xorA => exact absurd rfl h
  | ldHlD16 v => rw [committed, State.setPC_getFlags, State.set16_HL_getFlags]

/-- No instruction reads a flag: with any other flags before, the committed state differs in the flags only. -/
theorem committed_setFlags (i : Instr) (s : State) (f : FlagBits) :
    (committed i (s.setFlags allFlags f)).setFlags allFlags (committed i s).getFlags = committed i s := by
  cases i <;> rfl

/-- An error taken with other flags before differs in the flags only. -/
theorem raise_setFlags (s : State) (err : CoreError) (f : FlagBits) :
    ((s.setFlags allFlags f).raise err).setFlags allFlags (s.raise err).getFlags = s.raise err := rfl

/-- Settles O31: of `exec_eq`'s two ends, an error keeps the flags, and a commit writes them in XOR A only. -/
theorem onlyXorAWritesFlags : Obligations.OnlyXorAWritesFlags := by
  refine ⟨fun i s t h hi => ?_, fun s hpc => ?_, fun i s t f h => ?_⟩
  · rw [exec_eq] at h
    cases h
    split
    · exact committed_getFlags s hi
    · exact State.raise_getFlags s _
  · have hfit : s.pc.toNat + reach .xorA ≤ 0xFFFF := by
      rw [reach]
      bv_omega
    exact ⟨committed .xorA s, by rw [exec_eq, if_pos hfit], rfl⟩
  · rw [exec_eq] at h
    cases h
    refine ⟨_, exec_eq i _, ?_⟩
    rw [State.setFlags_pc]
    split
    · exact committed_setFlags i s f
    · exact raise_setFlags s _ f

/-- Settles O38: a step that ends in RUNNING has committed the decoded instruction, whose opcode is the byte at PC. -/
theorem pcMovesByTheRow : Obligations.PcMovesByTheRow := by
  intro s t hstep hrun
  obtain ⟨-, ⟨e, -, rfl⟩ | ⟨i, hi, hexec⟩⟩ := step_eq_next hstep
  · cases hrun
  obtain ⟨hfit, rfl⟩ := exec_eq_next_running hexec hrun
  have hop := (fetchDecode_opcode hi).symm
  cases i with
  | nop => exact .inl ⟨hop, toNat_trunc16_of_le hfit⟩
  | jpA16 target => exact .inr (.inr (.inr ⟨hop, fetchDecode_jpA16_target hi hfit⟩))
  | xorA => exact .inr (.inl ⟨hop, toNat_trunc16_of_le hfit⟩)
  | ldHlD16 v => exact .inr (.inr (.inl ⟨hop, toNat_trunc16_of_le hfit⟩))

/-- Settles O1: the named register reads back the truncated number, every other field is kept. -/
theorem eightBitWriteTruncates : Obligations.EightBitWriteTruncates := by
  intro s r r' n
  refine ⟨?_, State.set8_sp .., State.set8_pc .., State.set8_getFlags .., State.set8_mem .., State.set8_fsm ..⟩
  by_cases h : r' = r
  · subst h
    rw [if_pos rfl, State.get8_set8_same, trunc8, BitVec.toNat_ofNat]
  · rw [if_neg h, State.get8_set8_of_ne s _ h]

/-- Settles O4: `setFlags` is R24's rule flag by flag, `maskedFlag` being its `if`. -/
theorem flagWriteFollowsMask : Obligations.FlagWriteFollowsMask := by
  intro s mask val
  simp only [State.setFlags, maskedFlag]

end Sys2Proof.Proofs

/-! SUPPORT. What memory reads after a store (R42), and that an instruction leaves memory as it was (R94). -/

namespace Sys2Proof.Machine

theorem Memory.read_cons (a : Nat) (v : Byte) (m : Memory) (x : Nat) :
    Memory.read ((a, v) :: m) x = if x = a then v else Memory.read m x := rfl

/-- Below the lowest address a canonical list can name, every byte is the unlisted one (R116). -/
theorem Memory.read_eq_unlisted_of_lt {m : Memory} {lo x : Nat} (h : Memory.wfFrom lo m = true) (hx : x < lo) :
    m.read x = Memory.unlisted := by
  induction m generalizing lo with
  | nil => rfl
  | cons e m ih =>
    obtain ⟨a, v⟩ := e
    obtain ⟨hlo, -, -, hm⟩ := (Memory.wfFrom_cons lo a v m).1 h
    rw [Memory.read_cons, if_neg (by omega), ih hm (by omega)]

/-- Listing `v` in front, unless an unlisted address reads as `v` anyway: `x` reads `v` and the rest reads as it did. -/
theorem Memory.read_put {m : Memory} {x : Nat} (v : Byte) (hm : m.read x = Memory.unlisted) (y : Nat) :
    Memory.read (if v = Memory.unlisted then m else (x, v) :: m) y = if y = x then v else m.read y := by
  split
  · next hv =>
    split
    · next hy => rw [hy, hm, hv]
    · rfl
  · rfl

/-- A write sets the byte at its address and no other, in canonical memory (R42). -/
theorem Memory.read_write {m : Memory} {lo : Nat} (h : Memory.wfFrom lo m = true) (x : Nat) (v : Byte) (y : Nat) :
    (m.write x v).read y = if y = x then v else m.read y := by
  induction m generalizing lo with
  | nil => exact Memory.read_put v rfl y
  | cons e m ih =>
    obtain ⟨a, w⟩ := e
    obtain ⟨hlo, ha, hw, hm⟩ := (Memory.wfFrom_cons lo a w m).1 h
    unfold Memory.write
    split
    · next hlt =>
      have hcons : Memory.wfFrom a ((a, w) :: m) = true := (Memory.wfFrom_cons a a w m).2 ⟨le_rfl, ha, hw, hm⟩
      exact Memory.read_put v (Memory.read_eq_unlisted_of_lt hcons hlt) y
    · split
      · next heq =>
        subst heq
        rw [Memory.read_put v (Memory.read_eq_unlisted_of_lt hm (Nat.lt_succ_self x)), Memory.read_cons]
        split <;> rfl
      · next hne =>
        rw [Memory.read_cons, Memory.read_cons, ih hm]
        split
        · next hya => rw [if_neg (by omega)]
        · rfl

/-- A store is read back at its address, and every other address reads as before (R42). -/
theorem Memory.load_store {m : Memory} (h : m.wf = true) (addr : Word) (v : Byte) (x : Word) :
    (m.store addr v).load x = if x = addr then v else m.load x := by
  simp only [Memory.load, Memory.store, Memory.read_write h, BitVec.toNat_inj]

@[simp] theorem committed_mem (i : Instr) (s : State) : (committed i s).mem = s.mem := by
  cases i <;> simp [committed]

/-- Both ends of an instruction, the commit and the error, hold the memory it started with (R94). -/
theorem exec_keeps_mem {i : Instr} {s t : State} (h : exec i s = .next t) : t.mem = s.mem := by
  rw [exec_eq] at h
  cases h
  split
  · exact committed_mem i s
  · exact State.raise_mem s _

/-- Where it is defined, `loadWord` assembles the bytes at `addr` and `addr + 1`, the word sum (R43). -/
theorem Memory.loadWord_of_le (m : Memory) {addr : Word} (h : addr.toNat ≤ 0xFFFE) :
    m.loadWord addr = some (imm16 (m.load addr) (m.load (addr + 1))) := by
  rw [Memory.loadWord, if_pos h, trunc16_toNat_add]
  rfl

end Sys2Proof.Machine

/-! PROOFS. The statements about memory: what a store writes, who stores, how a word is read. -/

namespace Sys2Proof.Proofs

open Sys2Proof.Machine

/-- Settles O11: `Memory.load_store` for the bytes, the frame of `State.store`, and memory kept by both ends of `exec`. -/
theorem storeWritesOneByte : Obligations.StoreWritesOneByte :=
  ⟨fun _ addr x v hwf => ⟨Memory.load_store hwf addr v x, rfl⟩, fun _ _ _ => exec_keeps_mem⟩

/-- Settles O12: `imm16` is the little-endian word of the two bytes, and `addr + 1` has an address. -/
theorem loadWordIsLittleEndian : Obligations.LoadWordIsLittleEndian :=
  fun m _ h => m.loadWord_of_le h

end Sys2Proof.Proofs

/-! SUPPORT. The decoder's answers, one equation per branch (R61, R75, R76), how a refusal becomes the step's error (R100),
the immediate's value (R58), the count of bytes with no row (R63), and the shape of every encoding (R55 to R57). -/

namespace Sys2Proof

/-- The immediate's value: the low byte fills the eight bits that the shifted high byte leaves free (R58). -/
theorem imm16_toNat (b1 b2 : Byte) : (imm16 b1 b2).toNat = b1.toNat + 256 * b2.toNat := by
  have hhigh : (zext16 b2 <<< 8).toNat = b2.toNat <<< 8 := by
    simp only [zext16, BitVec.toNat_shiftLeft, BitVec.toNat_setWidth, Nat.shiftLeft_eq]
    omega
  have hlow : (zext16 b1).toNat = b1.toNat := by
    rw [zext16, BitVec.toNat_setWidth]
    omega
  calc (imm16 b1 b2).toNat
      = b2.toNat <<< 8 ||| b1.toNat := by rw [imm16, BitVec.toNat_or, hlow, hhigh, Nat.or_comm]
    _ = b2.toNat <<< 8 + b1.toNat := (Nat.shiftLeft_add_eq_or_of_lt b1.isLt _).symm
    _ = b1.toNat + 256 * b2.toNat := by omega

/-- The opcodes of the four rows, as numbers (R62). -/
def rowOpcodes : Finset Nat := {0x00, 0x21, 0xAF, 0xC3}

/-- A byte has no row exactly when its number is none of the four opcodes (R63). -/
theorem lookup_trunc8_eq_none {n : Nat} (h : n < 256) : lookup (trunc8 n) = none ↔ n ∉ rowOpcodes := by
  simp only [lookup_eq_none, trunc8, ne_eq, ← BitVec.toNat_inj, BitVec.toNat_ofNat, rowOpcodes, Finset.mem_insert,
    Finset.mem_singleton]
  omega

theorem rowOpcodes_subset_range : rowOpcodes ⊆ Finset.range 256 := by
  simp [rowOpcodes, Finset.insert_subset_iff]

/-- The bytes of no row, counted: the 256 bytes less the four rows (R63). -/
theorem length_filter_lookup_none :
    ((List.range 256).filter fun n => (lookup (trunc8 n)).isNone).length = 252 := by
  have hset : ((List.range 256).filter fun n => (lookup (trunc8 n)).isNone).toFinset = Finset.range 256 \ rowOpcodes := by
    ext n
    rw [List.mem_toFinset, List.mem_filter, List.mem_range, Finset.mem_sdiff, Finset.mem_range,
      Option.isNone_iff_eq_none]
    exact and_congr_right lookup_trunc8_eq_none
  rw [← List.toFinset_card_of_nodup (List.nodup_range.filter _), hset,
    Finset.card_sdiff_of_subset rowOpcodes_subset_range, Finset.card_range]
  rfl

/-- An opcode with no row is refused by name, whatever the candidates are (R63, R75). -/
theorem decode_of_lookup_none {op : Byte} (h : lookup op = none) (b1 b2 : Option Byte) :
    decode op b1 b2 = .error (.unsupportedOpcode op) := by
  rw [decode, h]

/-- An opcode with a row decodes by that row where no operand byte is absent: `decode_eq_ok`'s converse (R61, R76). -/
theorem decode_of_lookup_some {op : Byte} {d : Descriptor} {b1 b2 : Option Byte} (h : lookup op = some d)
    (hab : absentOperand d.width b1 b2 = none) :
    decode op b1 b2 = .ok (instrOf d.mnemonic (imm16 (b1.getD 0) (b2.getD 0))) := by
  rw [decode, h]
  dsimp only
  rw [hab]

/-- Every instruction's encoding has the form of R55 to R57. -/
theorem Laws.EncodingShape.statement (i : Instr) : Statement i := by
  cases i with
  | nop => exact nop
  | jpA16 target => exact jpA16 target
  | xorA => exact xorA
  | ldHlD16 v => exact ldHlD16 v

namespace Machine

/-- In RUNNING, a byte at PC that decodes to no instruction ends the cycle in the error it raises (R75, R76, R100). -/
theorem step_of_decode_error {s : State} {e : DecodeError} (hrun : s.fsm = .running)
    (h : decode (s.mem.load s.pc) (candidate Config.pcOverflow s 1) (candidate Config.pcOverflow s 2) = .error e) :
    step s = .next (s.raise (errorOfDecode s.pc e)) := by
  have hfetch : fetchDecode s = .error (errorOfDecode s.pc e) := by rw [fetchDecode, h]
  rw [step, hrun]
  dsimp only
  rw [hfetch]

end Machine

end Sys2Proof

/-! PROOFS. The statements about the encoding: what the opcode byte fixes, the bytes of no row, the immediate. -/

namespace Sys2Proof.Proofs

open Sys2Proof.Machine

/-- Settles O20: the opcode's row is the decoded instruction's own, and that row's width is the encoding's. -/
theorem opcodeByteFixesLength : Obligations.OpcodeByteFixesLength := by
  intro op b1 b2 i h
  obtain ⟨-, hlen, hwidth, -, -, -⟩ := Laws.EncodingShape.statement i
  have hrow : i.length = 1 + i.descriptor.width := by rw [Instr.length, hwidth]
  exact ⟨i.descriptor, decode_descriptor h, hrow, hlen.trans hrow⟩

/-- Settles O22: a byte of no row is refused by the decoder, and in RUNNING the refusal is the step's error. -/
theorem unsupportedBytesHalt : Obligations.UnsupportedBytesHalt := by
  refine ⟨fun op => ?_, length_filter_lookup_none, rfl, rfl, fun op b1 b2 h => decode_of_lookup_none h b1 b2,
    fun s hrun h => step_of_decode_error hrun (decode_of_lookup_none h _ _)⟩
  rw [lookup_eq_none]
  tauto

/-- Settles O21: the value is `imm16_toNat`, and both rows of width 2 decode with the immediate. -/
theorem immediateIsLittleEndian : Obligations.ImmediateIsLittleEndian := fun b1 b2 =>
  ⟨rfl, imm16_toNat b1 b2, decode_of_lookup_some (d := descJpA16) rfl (absentOperand_two_some b1 b2),
    decode_of_lookup_some (d := descLdHlD16) rfl (absentOperand_two_some b1 b2)⟩

end Sys2Proof.Proofs

/-! SUPPORT. What a cycle of `step` can end in (R71, R72, R81, R100), the operand check on the table's rows (R76), and what a
cycle of the stages does with a row whose operand bytes are present (R77 to R79). -/

namespace Sys2Proof

/-- Every row of the table consumes no operand byte or two (R62). -/
theorem lookup_width {op : Byte} {d : Descriptor} (h : lookup op = some d) :
    (d.width : Nat) = 0 ∨ (d.width : Nat) = 2 := by
  obtain ⟨-, rfl⟩ | ⟨-, rfl⟩ | ⟨-, rfl⟩ | ⟨-, rfl⟩ := lookup_eq_some.1 h
  · exact .inl rfl
  · exact .inr rfl
  · exact .inl rfl
  · exact .inr rfl

/-- A row is found under its own opcode (R60, R62). -/
theorem lookup_opcode {op : Byte} {d : Descriptor} (h : lookup op = some d) : d.opcode = op := by
  obtain ⟨rfl, rfl⟩ | ⟨rfl, rfl⟩ | ⟨rfl, rfl⟩ | ⟨rfl, rfl⟩ := lookup_eq_some.1 h <;> rfl

/-- The one row with an absolute PC rule, the jump's, has two operand bytes (R62, R87). -/
theorem lookup_width_of_absolute {op : Byte} {d : Descriptor} (h : lookup op = some d)
    (habs : d.pcRule = .absoluteImm16) : (d.width : Nat) = 2 := by
  obtain ⟨-, rfl⟩ | ⟨-, rfl⟩ | ⟨-, rfl⟩ | ⟨-, rfl⟩ := lookup_eq_some.1 h
  · cases habs
  · rfl
  · cases habs
  · cases habs

/-- The operand check reports the lower byte whenever it is consumed and absent (R76, R103). -/
theorem absentOperand_none {w : Nat} (hw : 1 ≤ w) (b2 : Option Byte) : absentOperand w none b2 = some 1 :=
  if_pos ⟨hw, rfl⟩

/-- No operand byte is absent where both candidates are present, whatever the width (R67). -/
@[simp] theorem absentOperand_some_some (w : Nat) (x y : Byte) : absentOperand w (some x) (some y) = none := by
  simp [absentOperand]

/-- A width-2 row misses no operand byte exactly when both are present (R76). -/
theorem absentOperand_two_eq_none {b1 b2 : Option Byte} :
    absentOperand 2 b1 b2 = none ↔ b1 ≠ none ∧ b2 ≠ none := by
  cases b1 <;> cases b2 <;> simp [absentOperand_two]

/-- An absent operand byte of the opcode's row is what the decoder refuses (R75, R76). -/
theorem decode_of_absentOperand {op : Byte} {d : Descriptor} {b1 b2 : Option Byte} {k : Nat}
    (h : lookup op = some d) (hab : absentOperand d.width b1 b2 = some k) :
    decode op b1 b2 = .error (.absentOperand op k) := by
  rw [decode, h]
  dsimp only
  rw [hab]

namespace Machine

/-! A cycle of `step`. -/

/-- From RUNNING a step always has a next state: neither fetch and decode nor an instruction can stop it (R70, R71). -/
theorem exists_step_eq_next {s : State} (hrun : s.fsm = .running) : ∃ t, step s = .next t := by
  rw [step, hrun]
  dsimp only
  cases fetchDecode s with
  | ok i => exact ⟨_, exec_eq i s⟩
  | error e => exact ⟨_, rfl⟩

/-- The error names the byte at PC and PC itself (R96, R97, R100). -/
def CoreError.RaisedAt (s : State) (e : CoreError) : Prop :=
  e = .unsupportedOpcode (s.mem.load s.pc) s.pc ∨ ∃ addr, e = .addressRange (s.mem.load s.pc) s.pc addr

/-- Everything a step can end in: RUNNING, or the start state with an error raised there (R71, R81, R100). -/
theorem step_ends {s t : State} (h : step s = .next t) :
    t.fsm = .running ∨ ∃ e, t = s.raise e ∧ e.RaisedAt s := by
  obtain ⟨hrun, ⟨e, he, rfl⟩ | ⟨i, hi, hexec⟩⟩ := step_eq_next h
  · exact .inr ⟨e, rfl, (fetchDecode_eq_error he).imp_right fun ⟨_, hk⟩ => ⟨_, hk⟩⟩
  · obtain ⟨u, hu, hend⟩ := exec_commitsOrRaises i s
    obtain rfl : t = u := Host.Outcome.next.inj (hexec.symm.trans hu)
    obtain hkept | ⟨addr, hraise⟩ := hend
    · exact .inl (hkept.trans hrun)
    · rw [fetchDecode_opcode hi] at hraise
      exact .inr ⟨_, hraise, .inr ⟨addr, rfl⟩⟩

/-- In RUNNING, an absent operand byte of the row at PC raises AddressRangeError with that byte's address (R76). -/
theorem step_of_absentOperand {s : State} {d : Descriptor} {k : Nat} (hrun : s.fsm = .running)
    (hd : lookup (s.mem.load s.pc) = some d)
    (hab : absentOperand d.width (candidate .fault s 1) (candidate .fault s 2) = some k) :
    step s = .next (s.raise (.addressRange (s.mem.load s.pc) s.pc (s.pc.toNat + k))) :=
  step_of_decode_error hrun (decode_of_absentOperand hd hab)

/-- A row misses no operand byte exactly when it has none or both of its two have an address (R76). -/
theorem absentOperand_fault_eq_none {s : State} {d : Descriptor} (hd : lookup (s.mem.load s.pc) = some d) :
    absentOperand d.width (candidate .fault s 1) (candidate .fault s 2) = none ↔
      ((d.width : Nat) = 2 → s.pc.toNat + 2 ≤ 0xFFFF) := by
  obtain hw | hw := lookup_width hd
  · rw [hw, absentOperand_zero]
    simp
  · rw [hw, absentOperand_two_eq_none, ne_eq, ne_eq, candidate_fault_eq_none, candidate_fault_eq_none]
    omega

/-! A cycle of the stages. -/

/-- A halted state keeps itself (R72's total form). -/
theorem cycle_of_halted {s : State} {e : CoreError} (h : s.fsm = .halted e) (p : PcOverflow) : cycle p s = s := by
  rw [cycle, h]

/-- A halted state keeps itself for ever (R72). -/
theorem cycles_of_halted {s : State} {e : CoreError} (h : s.fsm = .halted e) (p : PcOverflow) (n : Nat) :
    cycles p s n = s := by
  induction n with
  | zero => rfl
  | succ n ih => rw [cycles, cycle_of_halted h, ih]

/-- In RUNNING, a row whose operand bytes are present goes through stages 4 to 6 (R77, R78, R79). -/
theorem cycle_of_row {p : PcOverflow} {s : State} {d : Descriptor} (hrun : s.fsm = .running)
    (hd : lookup (s.mem.load s.pc) = some d)
    (hab : absentOperand d.width (candidate p s 1) (candidate p s 2) = none) :
    cycle p s = completeRow p d (imm16 ((candidate p s 1).getD 0) ((candidate p s 2).getD 0)) s := by
  rw [cycle, hrun]
  dsimp only
  rw [hd]
  dsimp only
  rw [hab]

/-- The pending writes leave the FSM as it was (R77). -/
@[simp] theorem applyEffect_fsm (d : Descriptor) (imm : Word) (s : State) : (applyEffect d imm s).fsm = s.fsm := by
  unfold applyEffect
  cases d.effect <;> simp

/-- A row whose next PC is resolved commits it and stays in its FSM state (R78, R79). -/
theorem completeRow_of_ok {p : PcOverflow} {d : Descriptor} {imm next : Word} {s : State}
    (h : resolvePc p d s.pc imm = .ok next) :
    (completeRow p d imm s).pc = next ∧ (completeRow p d imm s).fsm = s.fsm := by
  rw [completeRow, h]
  exact ⟨rfl, applyEffect_fsm d imm s⟩

/-- A row whose next PC does not exist raises AddressRangeError on the start state (R78, R81). -/
theorem completeRow_of_error {p : PcOverflow} {d : Descriptor} {imm : Word} {n : Nat} {s : State}
    (h : resolvePc p d s.pc imm = .error n) : completeRow p d imm s = s.raise (.addressRange d.opcode s.pc n) := by
  rw [completeRow, h]

/-- An absolute row's next PC is its immediate, with no relative advance (R78). -/
theorem resolvePc_absolute {d : Descriptor} (h : d.pcRule = .absoluteImm16) (p : PcOverflow) (pc imm : Word) :
    resolvePc p d pc imm = .ok imm := by
  rw [resolvePc, h]

/-- A relative row's next PC is the sum that `nextPc` forms (R78). -/
theorem resolvePc_relative {d : Descriptor} (h : d.pcRule = .relative) (p : PcOverflow) (pc imm : Word) :
    resolvePc p d pc imm = nextPc p pc d.width := by
  rw [resolvePc, h]

end Machine

end Sys2Proof

/-! PROOFS. The statements about the cycle: what it ends in, the operand check, the next PC, what an error leaves. -/

namespace Sys2Proof.Proofs

open Sys2Proof.Machine

/-- Settles O34: a step from RUNNING has a next state, and `step_ends` says what that state is. -/
theorem runningAlwaysAnswersAState : Obligations.RunningAlwaysAnswersAState := by
  refine ⟨fun s hrun => ?_, fun s t h => (step_eq_next h).1⟩
  obtain ⟨t, ht⟩ := exists_step_eq_next hrun
  refine ⟨t, ht, (step_ends ht).imp_right ?_⟩
  rintro ⟨e, rfl, -⟩
  exact ⟨e, rfl, rfl⟩

/-- Settles O35: next states come from RUNNING only, a cycle keeps a halted state, and a halt permits reset. -/
theorem haltedIsTerminal : Obligations.HaltedIsTerminal := by
  intro s e hhalt
  refine ⟨fun t ht => ?_, cycles_of_halted hhalt, fun n => ?_⟩
  · have hrun := (step_eq_next ht).1
    rw [hhalt] at hrun
    cases hrun
  · have hout : s.halted = true := by rw [State.halted, hhalt]
    exact ⟨_, Run.resetEvent_eq_some.2 ⟨.inr hout, rfl⟩, rfl, rfl⟩

/-- Settles O36: the decoder refuses the first absent byte, which at the default lies just past the top. -/
theorem operandCheckRaises : Obligations.OperandCheckRaises := by
  intro s d hrun hd
  have hpc := s.pc.isLt
  refine ⟨fun hw h1 => ?_, fun hw h1 h2 => ?_, ?_, absentOperand_some_some _ _ _⟩
  · have hab : absentOperand d.width (candidate .fault s 1) (candidate .fault s 2) = some 1 := by
      rw [h1, absentOperand_none hw]
    rw [candidate_fault_eq_none] at h1
    exact ⟨step_of_absentOperand hrun hd hab, by omega⟩
  · have hab : absentOperand d.width (candidate .fault s 1) (candidate .fault s 2) = some 2 := by
      rw [hw, absentOperand_two, if_neg h1, if_pos h2]
    rw [ne_eq, candidate_fault_eq_none] at h1
    rw [candidate_fault_eq_none] at h2
    exact ⟨step_of_absentOperand hrun hd hab, by omega⟩
  · have htop : 0xFFFF < s.pc.toNat + 2 ↔ s.pc = 0xFFFE#16 ∨ s.pc = 0xFFFF#16 := by bv_omega
    rw [ne_eq, absentOperand_fault_eq_none hd, Classical.not_imp, not_le, htop]

/-- Settles O37: the cycle completes the row, by `resolvePc`'s answer for its PC rule. -/
theorem nextPcRule : Obligations.NextPcRule := by
  intro p s d hrun hd hab
  rw [cycle_of_row hrun hd hab, ← lookup_opcode hd, ← hrun]
  refine ⟨fun habs => ?_, fun hrel hle => ?_, fun hrel hgt hp => ?_, fun hrel hgt hp => ?_⟩
  · rw [lookup_width_of_absolute hd habs, absentOperand_two_eq_none] at hab
    obtain ⟨hpresent1, hpresent2⟩ := hab
    obtain ⟨b1, h1⟩ := Option.ne_none_iff_exists'.1 hpresent1
    obtain ⟨b2, h2⟩ := Option.ne_none_iff_exists'.1 hpresent2
    rw [h1, h2]
    exact ⟨b1, b2, rfl, rfl, completeRow_of_ok (resolvePc_absolute habs p _ _)⟩
  · obtain ⟨hpc, hfsm⟩ := completeRow_of_ok ((resolvePc_relative hrel p _ _).trans (nextPc_of_le hle))
    exact ⟨by rw [hpc, toNat_trunc16_of_le hle], hfsm⟩
  · subst hp
    exact completeRow_of_error ((resolvePc_relative hrel _ _ _).trans (nextPc_fault_of_gt hgt))
  · subst hp
    obtain ⟨hpc, hfsm⟩ := completeRow_of_ok ((resolvePc_relative hrel _ _ _).trans (nextPc_wrap _ _))
    exact ⟨by rw [hpc]; rfl, hfsm⟩

/-- Settles O46: the end of the step is not RUNNING, so it is the start state with the error raised there. -/
theorem errorCommitsNothing : Obligations.ErrorCommitsNothing := by
  intro s t e h hhalt
  obtain hrun | ⟨e', rfl, hat⟩ := step_ends h
  · rw [hhalt] at hrun
    cases hrun
  · obtain rfl : e' = e := Fsm.halted.inj hhalt
    exact ⟨rfl, hat⟩

end Sys2Proof.Proofs

/-! SUPPORT. The two ends of `exec_eq`, one rule each (R79, R100). -/

namespace Sys2Proof.Machine

/-- An instruction all of whose addresses exist commits its state (R79). -/
theorem exec_of_fits {i : Instr} {s : State} (h : s.pc.toNat + reach i ≤ 0xFFFF) : exec i s = .next (committed i s) := by
  rw [exec_eq, if_pos h]

/-- An instruction that needs an address past the top raises AddressRangeError on the start state (R97, R100). -/
theorem exec_of_past_top {i : Instr} {s : State} (h : 0xFFFF < s.pc.toNat + reach i) :
    exec i s = .next (s.raise (.addressRange i.descriptor.opcode s.pc 0x10000)) := by
  rw [exec_eq, if_neg (Nat.not_le.2 h)]

end Sys2Proof.Machine

/-! PROOFS. The statements about the control instructions: NOP and JP a16. -/

namespace Sys2Proof.Proofs

open Sys2Proof.Machine

/-- Settles O24: NOP needs PC + 1 alone, which has an address exactly below 0xFFFF; its row consumes no operand byte. -/
theorem nopAdvancesPcOnly : Obligations.NopAdvancesPcOnly := by
  refine ⟨rfl, fun b1 b2 => decode_of_lookup_some (d := descNop) rfl (absentOperand_zero b1 b2),
    fun s => ⟨fun hpc => ?_, fun hpc => ?_⟩⟩
  · have hfit : s.pc.toNat + reach .nop ≤ 0xFFFF := by
      rw [reach]
      bv_omega
    rw [exec_of_fits hfit, committed, trunc16_toNat_add]
    rfl
  · have hpast : 0xFFFF < s.pc.toNat + reach .nop := by rw [hpc]; decide
    rw [← hpc]
    exact exec_of_past_top hpast

/-- Settles O25: a jump needs its two operand bytes alone, so it commits up to 0xFFFD, whatever the target is. -/
theorem jumpSetsPcOnly : Obligations.JumpSetsPcOnly := by
  refine fun target => ⟨rfl, fun b1 b2 => decode_of_lookup_some (d := descJpA16) rfl (absentOperand_two_some b1 b2),
    fun s => ⟨fun hpc => exec_of_fits (i := .jpA16 target) (Nat.add_le_add_right hpc 2), fun hpc => ?_⟩⟩
  have hpast : 0xFFFF < s.pc.toNat + reach (.jpA16 target) := by
    obtain hpc | hpc := hpc <;> rw [hpc, reach] <;> decide
  exact exec_of_past_top hpast

end Sys2Proof.Proofs

/-! PROOFS. The statement about the ALU's one instruction: XOR A. -/

namespace Sys2Proof.Proofs

open Sys2Proof.Machine

/-- XOR A needs PC + 1 alone, which has an address exactly below 0xFFFF (R78, R91). -/
theorem xorA_fits_iff {s : State} : s.pc.toNat + reach .xorA ≤ 0xFFFF ↔ s.pc ≠ 0xFFFF#16 := by
  rw [reach]
  bv_omega

/-- Settles O26: the ALU clause is `alu_xor_self`, and the two ends of `exec` are split by whether PC + 1 has an address. -/
theorem xorAClearsAccumulator : Obligations.XorAClearsAccumulator := by
  refine ⟨rfl, fun b1 b2 => decode_of_lookup_some (d := descXorA) rfl (absentOperand_zero b1 b2), alu_xor_self,
    fun s => ⟨fun hpc => ?_, fun hpc => ?_⟩⟩
  · rw [exec_of_fits (xorA_fits_iff.2 hpc), committed, trunc16_toNat_add]
    rfl
  · have hpast : 0xFFFF < s.pc.toNat + reach .xorA := Nat.not_le.1 fun hfit => xorA_fits_iff.1 hfit hpc
    rw [← hpc]
    exact exec_of_past_top hpast

end Sys2Proof.Proofs

/-! PROOFS. The statement about the load instruction: LD HL,d16. -/

namespace Sys2Proof.Proofs

open Sys2Proof.Machine

/-- The state LD HL,d16 commits: the halves of `v` in H and L, and PC three further (R93). -/
theorem committed_ldHlD16 (v : Word) (s : State) :
    committed (.ldHlD16 v) s = { s with h := highByte v, l := lowByte v, pc := s.pc + 3 } := by
  rw [committed, trunc16_toNat_add]
  rfl

/-- Settles O27: LD HL,d16 needs PC + 3, its next PC, which has an address exactly up to 0xFFFC. -/
theorem loadHLSetsPair : Obligations.LoadHLSetsPair := by
  refine fun v => ⟨rfl, fun b1 b2 => decode_of_lookup_some (d := descLdHlD16) rfl (absentOperand_two_some b1 b2),
    fun s => ⟨fun hpc => ?_, fun hpc => ?_⟩⟩
  · have hfit : s.pc.toNat + reach (.ldHlD16 v) ≤ 0xFFFF := Nat.add_le_add_right hpc 3
    rw [exec_of_fits hfit, committed_ldHlD16, highByte, lowByte]
  · have hpast : 0xFFFF < s.pc.toNat + reach (.ldHlD16 v) := by
      obtain hpc | hpc | hpc := hpc <;> rw [hpc, reach] <;> decide
    exact exec_of_past_top hpast

end Sys2Proof.Proofs

/-! SUPPORT. Which error a running cycle ends in, exactly: a function of the byte at PC and of PC (R75, R76, R78, R96, R97). -/

namespace Sys2Proof.Machine

open Sys2Proof.Safety

/-- `firstBadPc` is the lowest PC from which an instruction's `reach` passes the top (R97). -/
theorem firstBadPc_add_reach (i : Instr) : firstBadPc i.descriptor.opcode + reach i = 0x10000 := by
  cases i <;> rfl

/-- Below `firstBadPc` the operand bytes of a row all have an address (R76, R97). -/
theorem firstBadPc_add_width_le {op : Byte} {d : Descriptor} (h : lookup op = some d) :
    firstBadPc op + d.width ≤ 0x10000 := by
  obtain ⟨rfl, rfl⟩ | ⟨rfl, rfl⟩ | ⟨rfl, rfl⟩ | ⟨rfl, rfl⟩ := lookup_eq_some.1 h <;> decide

/-- A commit leaves the FSM as it was (R79). -/
@[simp] theorem committed_fsm (i : Instr) (s : State) : (committed i s).fsm = s.fsm := by
  cases i <;> simp [committed]

/-- At the default the operand byte that the check reports is the one at 0x10000, and the row is one of width 2 whose last
operand byte has no address (R76, R97). -/
theorem absentOperand_fault_eq_some {s : State} {d : Descriptor} {k : Nat} (hd : lookup (s.mem.load s.pc) = some d)
    (h : absentOperand d.width (candidate .fault s 1) (candidate .fault s 2) = some k) :
    s.pc.toNat + k = 0x10000 ∧ 0x10000 ≤ s.pc.toNat + d.width := by
  have hpc := s.pc.isLt
  obtain hw | hw := lookup_width hd
  · rw [hw, absentOperand_zero] at h
    cases h
  · simp only [hw, absentOperand_two, candidate_fault_eq_none] at h
    rw [hw]
    split at h
    · cases h
      omega
    · split at h
      · cases h
        omega
      · cases h

/-- In RUNNING, a decoded instruction is executed on the same state (R70, R77). -/
theorem step_of_decode_ok {s : State} {i : Instr} (hrun : s.fsm = .running)
    (h : decode (s.mem.load s.pc) (candidate Config.pcOverflow s 1) (candidate Config.pcOverflow s 2) = .ok i) :
    step s = exec i s := by
  have hfetch : fetchDecode s = .ok i := by rw [fetchDecode, h]
  rw [step, hrun]
  dsimp only
  rw [hfetch]

/-- In RUNNING, a byte with a row stays in RUNNING below `firstBadPc` and raises AddressRangeError at 0x10000 from there on:
by the operand check, or at the commit (R76, R78, R97). -/
theorem step_of_row {s : State} {d : Descriptor} (hrun : s.fsm = .running) (hd : lookup (s.mem.load s.pc) = some d) :
    (s.pc.toNat < firstBadPc (s.mem.load s.pc) ∧ ∃ t, step s = .next t ∧ t.fsm = .running) ∨
      (firstBadPc (s.mem.load s.pc) ≤ s.pc.toNat ∧
        step s = .next (s.raise (.addressRange (s.mem.load s.pc) s.pc 0x10000))) := by
  cases hab : absentOperand d.width (candidate .fault s 1) (candidate .fault s 2) with
  | some k =>
    obtain ⟨haddr, hpast⟩ := absentOperand_fault_eq_some hd hab
    have hwidth := firstBadPc_add_width_le hd
    refine .inr ⟨by omega, ?_⟩
    rw [step_of_absentOperand hrun hd hab, haddr]
  | none =>
    have hdec := decode_of_lookup_some hd hab
    generalize instrOf _ _ = i at hdec
    have hop : i.descriptor.opcode = s.mem.load s.pc := lookup_opcode (decode_descriptor hdec)
    have hreach := firstBadPc_add_reach i
    rw [hop] at hreach
    rw [step_of_decode_ok hrun hdec]
    by_cases hfit : s.pc.toNat + reach i ≤ 0xFFFF
    · exact .inl ⟨by omega, _, exec_of_fits hfit, (committed_fsm i s).trans hrun⟩
    · refine .inr ⟨by omega, ?_⟩
      rw [exec_of_past_top (Nat.not_le.1 hfit), hop]

/-- The error a running cycle ends in, exactly: by the table for the byte at PC, then by `firstBadPc` (R75, R96, R97). -/
theorem step_halts_iff {s : State} (hrun : s.fsm = .running) (e : CoreError) :
    (∃ t, step s = .next t ∧ t.fsm = .halted e) ↔
      (lookup (s.mem.load s.pc) = none ∧ e = .unsupportedOpcode (s.mem.load s.pc) s.pc) ∨
        ((∃ d, lookup (s.mem.load s.pc) = some d) ∧ firstBadPc (s.mem.load s.pc) ≤ s.pc.toNat ∧
          e = .addressRange (s.mem.load s.pc) s.pc 0x10000) := by
  cases hd : lookup (s.mem.load s.pc) with
  | none =>
    rw [step_of_decode_error hrun (decode_of_lookup_none hd _ _)]
    simp [errorOfDecode, eq_comm]
  | some d =>
    obtain ⟨hlt, t, hstep, ht⟩ | ⟨hle, hstep⟩ := step_of_row hrun hd
    · simp [hstep, ht, Nat.not_le.2 hlt]
    · simp [hstep, hle, eq_comm]

end Sys2Proof.Machine

/-! PROOFS. The statements about the exceptions: exactly when each of the two errors is raised, and its record. -/

namespace Sys2Proof.Proofs

open Sys2Proof.Machine Sys2Proof.Safety

/-- A running cycle raises UnsupportedOpcodeError exactly where the byte at PC has no row, and names that byte and PC (R96). -/
theorem step_halts_unsupportedOpcode_iff {s : State} (hrun : s.fsm = .running) (op : Byte) (pc : Word) :
    (∃ t, step s = .next t ∧ t.fsm = .halted (.unsupportedOpcode op pc)) ↔
      lookup (s.mem.load s.pc) = none ∧ op = s.mem.load s.pc ∧ pc = s.pc := by
  rw [step_halts_iff hrun]
  simp

/-- A running cycle raises AddressRangeError exactly where the byte at PC has a row and PC is at or above its `firstBadPc`,
and names that byte, PC and 0x10000 (R97). -/
theorem step_halts_addressRange_iff {s : State} (hrun : s.fsm = .running) (op : Byte) (pc : Word) (addr : Nat) :
    (∃ t, step s = .next t ∧ t.fsm = .halted (.addressRange op pc addr)) ↔
      ((∃ d, lookup (s.mem.load s.pc) = some d) ∧ firstBadPc (s.mem.load s.pc) ≤ s.pc.toNat) ∧
        op = s.mem.load s.pc ∧ pc = s.pc ∧ addr = 0x10000 := by
  rw [step_halts_iff hrun]
  simp [and_assoc]

/-- R97's list of addresses is `firstBadPc` of each row. -/
theorem row_and_firstBadPc_le_iff {op : Byte} {pc : Word} :
    (∃ d, lookup op = some d) ∧ firstBadPc op ≤ pc.toNat ↔
      ((op = 0x00#8 ∨ op = 0xAF#8) ∧ pc = 0xFFFF#16) ∨ (op = 0xC3#8 ∧ (pc = 0xFFFE#16 ∨ pc = 0xFFFF#16)) ∨
        (op = 0x21#8 ∧ (pc = 0xFFFD#16 ∨ pc = 0xFFFE#16 ∨ pc = 0xFFFF#16)) := by
  have top1 : 0xFFFF ≤ pc.toNat ↔ pc = 0xFFFF#16 := by bv_omega
  have top2 : 0xFFFE ≤ pc.toNat ↔ pc = 0xFFFE#16 ∨ pc = 0xFFFF#16 := by bv_omega
  have top3 : 0xFFFD ≤ pc.toNat ↔ pc = 0xFFFD#16 ∨ pc = 0xFFFE#16 ∨ pc = 0xFFFF#16 := by bv_omega
  constructor
  · rintro ⟨⟨d, hd⟩, hle⟩
    obtain ⟨rfl, -⟩ | ⟨rfl, -⟩ | ⟨rfl, -⟩ | ⟨rfl, -⟩ := lookup_eq_some.1 hd
    · exact .inl ⟨.inl rfl, top1.1 hle⟩
    · exact .inr (.inl ⟨rfl, top2.1 hle⟩)
    · exact .inl ⟨.inr rfl, top1.1 hle⟩
    · exact .inr (.inr ⟨rfl, top3.1 hle⟩)
  · rintro (⟨rfl | rfl, hpc⟩ | ⟨rfl, hpc⟩ | ⟨rfl, hpc⟩)
    · exact ⟨⟨_, rfl⟩, top1.2 hpc⟩
    · exact ⟨⟨_, rfl⟩, top1.2 hpc⟩
    · exact ⟨⟨_, rfl⟩, top2.2 hpc⟩
    · exact ⟨⟨_, rfl⟩, top3.2 hpc⟩

/-- Settles O47: the bytes outside the four are those with no row, and a running cycle raises this error for no other. -/
theorem unsupportedOpcodeErrorExactly : Obligations.UnsupportedOpcodeErrorExactly := by
  intro s hrun
  refine ⟨⟨?_, fun hop => ?_⟩, fun t op pc hstep ht => ?_⟩
  · rintro ⟨t, op, pc, h⟩
    obtain ⟨hnone, -⟩ := (step_halts_unsupportedOpcode_iff hrun op pc).1 ⟨t, h⟩
    rw [lookup_eq_none] at hnone
    tauto
  · have hnone : lookup (s.mem.load s.pc) = none := by
      rw [lookup_eq_none]
      tauto
    obtain ⟨t, h⟩ := (step_halts_unsupportedOpcode_iff hrun _ _).2 ⟨hnone, rfl, rfl⟩
    exact ⟨t, _, _, h⟩
  · exact ((step_halts_unsupportedOpcode_iff hrun op pc).1 ⟨t, hstep, ht⟩).2

/-- Settles O48: R97's list is the rows' `firstBadPc`, from which on, and only there, a running cycle raises this error. -/
theorem addressRangeErrorExactly : Obligations.AddressRangeErrorExactly := by
  intro s hrun
  refine ⟨?_, fun t op pc addr hstep ht => ((step_halts_addressRange_iff hrun op pc addr).1 ⟨t, hstep, ht⟩).2⟩
  rw [← row_and_firstBadPc_le_iff]
  constructor
  · rintro ⟨t, op, pc, addr, h⟩
    exact ((step_halts_addressRange_iff hrun op pc addr).1 ⟨t, h⟩).1
  · intro hbad
    obtain ⟨t, h⟩ := (step_halts_addressRange_iff hrun _ _ _).2 ⟨hbad, rfl, rfl, rfl⟩
    exact ⟨t, _, _, _, h⟩

end Sys2Proof.Proofs

/-! SUPPORT. What a byte list decodes to (R55, R57), which opcodes are supported (R63), and what steps and runs keep (R81,
R94). -/

namespace Sys2Proof

theorem lowByte_toNat (v : Word) : (lowByte v).toNat = v.toNat % 256 := by
  rw [lowByte, BitVec.extractLsb'_toNat, Nat.shiftRight_zero]

theorem highByte_toNat (v : Word) : (highByte v).toNat = v.toNat / 256 := by
  rw [highByte, BitVec.extractLsb'_toNat, Nat.shiftRight_eq_div_pow]
  omega

/-- The two halves of a word, put together again as the immediate (R22, R58). -/
@[simp] theorem imm16_lowByte_highByte (v : Word) : imm16 (lowByte v) (highByte v) = v := by
  apply BitVec.eq_of_toNat_eq
  rw [imm16_toNat, lowByte_toNat, highByte_toNat]
  omega

/-- A byte list decodes as its opcode with the two bytes after it, and loses the instruction's own bytes (R55, R57). -/
theorem decodeBytes_cons_eq_ok {op : Byte} {bytes rest : List Byte} {i : Instr} :
    decodeBytes (op :: bytes) = .ok (i, rest) ↔
      decode op bytes[0]? bytes[1]? = .ok i ∧ rest = bytes.drop i.width := by
  rw [decodeBytes]
  split
  · next j hj =>
    rw [hj]
    exact ⟨fun h => by cases h; exact ⟨rfl, rfl⟩, fun ⟨hi, hrest⟩ => by cases hi; rw [hrest]⟩
  · next e he =>
    rw [he]
    exact ⟨nofun, fun ⟨hi, _⟩ => nomatch hi⟩

/-- The bytes that a width-2 row consumes are the first two of the list (R57, R76). -/
theorem exists_cons_cons_of_absentOperand {bytes : List Byte} (h : absentOperand 2 bytes[0]? bytes[1]? = none) :
    ∃ b1 b2 rest, bytes = b1 :: b2 :: rest := by
  obtain ⟨-, h1⟩ := absentOperand_two_eq_none.1 h
  match bytes, h1 with
  | b1 :: b2 :: rest, _ => exact ⟨b1, b2, rest, rfl⟩
  | [_], h1 => exact absurd rfl h1
  | [], h1 => exact absurd rfl h1

/-- The supported opcodes are those with a row (R63). -/
theorem Safety.supported_eq_isSome_lookup (op : Byte) : Safety.supported op = (lookup op).isSome := by
  cases hd : lookup op with
  | some d => obtain ⟨rfl, -⟩ | ⟨rfl, -⟩ | ⟨rfl, -⟩ | ⟨rfl, -⟩ := lookup_eq_some.1 hd <;> rfl
  | none =>
    obtain ⟨h1, h2, h3, h4⟩ := lookup_eq_none.1 hd
    simp [Safety.supported, h1, h2, h3, h4]

namespace Machine

/-- A step ends in the committed state of the instruction it decodes, or in an error on the start state (R79, R81, R100). -/
theorem step_committed_or_raise {s t : State} (h : step s = .next t) :
    (∃ i, t = committed i s) ∨ ∃ e, t = s.raise e := by
  obtain ⟨-, ⟨e, -, rfl⟩ | ⟨i, -, hexec⟩⟩ := step_eq_next h
  · exact .inr ⟨e, rfl⟩
  · rw [exec_eq] at hexec
    cases hexec
    split
    · exact .inl ⟨i, rfl⟩
    · exact .inr ⟨_, rfl⟩

/-- What commits and errors both keep, a run keeps (R79, R81, R85). -/
theorem run_keeps {α : Type} {f : State → α} (hcommit : ∀ i s, f (committed i s) = f s)
    (hraise : ∀ s e, f (s.raise e) = f s) {n : Nat} {s t : State} (h : Sys2Proof.core.run n s = .next t) : f t = f s := by
  refine run_induction (P := fun s t => f t = f s) (fun s => rfl) (fun s u t hstep hut => hut.trans ?_) n s t h
  obtain ⟨i, rfl⟩ | ⟨e, rfl⟩ := step_committed_or_raise hstep
  · exact hcommit i s
  · exact hraise s e

/-- No run changes memory: no instruction in scope stores (R94). -/
theorem run_keeps_mem {n : Nat} {s t : State} (h : Sys2Proof.core.run n s = .next t) : t.mem = s.mem :=
  run_keeps (f := State.mem) committed_mem State.raise_mem h

/-- A step is a run of one (R85). -/
theorem core_run_one {s t : State} (h : step s = .next t) : Sys2Proof.core.run 1 s = .next t := by
  rw [core_run_succ, h]
  exact core_run_zero t

end Machine

end Sys2Proof

/-! PROOFS. The tier 3 statements: the invariant that every step keeps, and decode of encode. -/

namespace Sys2Proof.Proofs

open Sys2Proof.Machine Sys2Proof.Safety

/-- A RUNNING state has no record to be wrong (R32). -/
theorem recordTrue_of_running {s : State} (h : s.fsm = .running) : recordTrue s = true := by
  rw [recordTrue, h]

/-- The error that a running cycle raises leaves a true record: `step_halts_iff` says which error it is (R96, R97, R100). -/
theorem recordTrue_raise_of_step {s : State} {e : CoreError} (hrun : s.fsm = .running)
    (hstep : step s = .next (s.raise e)) : recordTrue (s.raise e) = true := by
  obtain ⟨hnone, rfl⟩ | ⟨⟨d, hd⟩, hbad, rfl⟩ := (step_halts_iff hrun e).1 ⟨_, hstep, rfl⟩
  · simp [recordTrue, supported_eq_isSome_lookup, hnone]
  · simp [recordTrue, supported_eq_isSome_lookup, hd, hbad]

/-- Settles O10: memory is the same data, and `step_ends` gives RUNNING or an error, whose record is then true. -/
theorem stepKeepsInvariant : Obligations.StepKeepsInvariant := by
  rintro s t ⟨hwf, -⟩ hstep
  refine ⟨by rwa [run_keeps_mem (core_run_one hstep)], ?_⟩
  obtain hrun | ⟨e, rfl, -⟩ := step_ends hstep
  · exact recordTrue_of_running hrun
  · exact recordTrue_raise_of_step (step_eq_next hstep).1 hstep

/-- Settles O16: the row of the encoding's opcode gives the instruction back, its immediate made of the two halves that
the encoder wrote. -/
theorem decodeOfEncodeIsTheInstruction : Obligations.DecodeOfEncodeIsTheInstruction := by
  intro i rest _
  cases i with
  | nop => exact decodeBytes_cons_eq_ok.2 ⟨decode_of_lookup_some (d := descNop) rfl (absentOperand_zero _ _), rfl⟩
  | jpA16 target =>
    obtain ⟨-, -, hdec, -⟩ := immediateIsLittleEndian (lowByte target) (highByte target)
    rw [imm16_lowByte_highByte] at hdec
    exact decodeBytes_cons_eq_ok.2 ⟨hdec, rfl⟩
  | xorA => exact decodeBytes_cons_eq_ok.2 ⟨decode_of_lookup_some (d := descXorA) rfl (absentOperand_zero _ _), rfl⟩
  | ldHlD16 v =>
    obtain ⟨-, -, -, hdec⟩ := immediateIsLittleEndian (lowByte v) (highByte v)
    rw [imm16_lowByte_highByte] at hdec
    exact decodeBytes_cons_eq_ok.2 ⟨hdec, rfl⟩

end Sys2Proof.Proofs

/-! SUPPORT. Exactly when the operand check reports each of the two bytes (R67, R76, R103). -/

namespace Sys2Proof

theorem absentOperand_eq_some_one {w : Nat} {b1 b2 : Option Byte} :
    absentOperand w b1 b2 = some 1 ↔ 1 ≤ w ∧ b1 = none := by
  unfold absentOperand
  split
  · next h => exact iff_of_true rfl h
  · next h =>
    refine iff_of_false ?_ h
    split <;> decide

theorem absentOperand_eq_some_two {w : Nat} {b1 b2 : Option Byte} :
    absentOperand w b1 b2 = some 2 ↔ w = 2 ∧ b1 ≠ none ∧ b2 = none := by
  unfold absentOperand
  split
  · next hfirst => exact iff_of_false (by decide) fun ⟨_, hb1, _⟩ => hb1 hfirst.2
  · next hfirst =>
    split
    · next hsecond => exact iff_of_true rfl ⟨hsecond.1, fun hb1 => hfirst ⟨by omega, hb1⟩, hsecond.2⟩
    · next hsecond => exact iff_of_false (by decide) fun ⟨hw, _, hb2⟩ => hsecond ⟨hw, hb2⟩

end Sys2Proof

/-! PROOFS. The other statements about the encoding: decoded bytes, well-formed bytes, samples, candidates. -/

namespace Sys2Proof.Proofs

open Sys2Proof.Machine

/-- Settles O17: a row of width 0 is its opcode byte, and a row of width 2 has both bytes, the halves of its immediate. -/
theorem encodeOfDecodeIsTheBytes : Obligations.EncodeOfDecodeIsTheBytes := by
  intro bs rest i h
  cases bs with
  | nil => cases h
  | cons op bytes =>
    obtain ⟨hdec, rfl⟩ := decodeBytes_cons_eq_ok.1 h
    obtain ⟨d, hd, hab, rfl⟩ := decode_eq_ok hdec
    obtain ⟨rfl, rfl⟩ | ⟨rfl, rfl⟩ | ⟨rfl, rfl⟩ | ⟨rfl, rfl⟩ := lookup_eq_some.1 hd
    · rfl
    · obtain ⟨b1, b2, rest, rfl⟩ := exists_cons_cons_of_absentOperand hab
      simp [instrOf, descJpA16, encode, Instr.width, lowByte_imm16, highByte_imm16]
    · rfl
    · obtain ⟨b1, b2, rest, rfl⟩ := exists_cons_cons_of_absentOperand hab
      simp [instrOf, descLdHlD16, encode, Instr.width, lowByte_imm16, highByte_imm16]

/-- Settles O18: each format of the table is the encoding of an instruction, with the immediate of its two operand bytes. -/
theorem wellFormedBytesAreTheEncodings : Obligations.WellFormedBytesAreTheEncodings := by
  refine fun bs => ⟨fun h => ?_, ?_⟩
  · unfold wellFormedBytes at h
    split at h
    · simp only [Bool.or_eq_true, beq_iff_eq] at h
      obtain rfl | rfl := h
      · exact ⟨.nop, rfl⟩
      · exact ⟨.xorA, rfl⟩
    · next b1 b2 =>
      simp only [Bool.or_eq_true, beq_iff_eq] at h
      obtain rfl | rfl := h
      · exact ⟨.jpA16 (imm16 b1 b2), by rw [encode, lowByte_imm16, highByte_imm16]⟩
      · exact ⟨.ldHlD16 (imm16 b1 b2), by rw [encode, lowByte_imm16, highByte_imm16]⟩
    · cases h
  · rintro ⟨i, rfl⟩
    obtain ⟨-, -, -, -, hwf, -⟩ := Laws.EncodingShape.statement i
    exact hwf

/-- Settles O19: six closed decodings, by evaluation. -/
theorem sampleWordsDecode : Obligations.SampleWordsDecode := ⟨rfl, rfl, rfl, rfl, rfl, rfl⟩

/-- Settles O23: the definition of `candidate` case by case, and the decoder's answer from the operand check's. -/
theorem candidatesAreReadOrAbsent : Obligations.CandidatesAreReadOrAbsent := by
  refine ⟨fun s k => ⟨rfl, rfl⟩, fun b1 b2 => ⟨?_, ?_⟩, fun op b2 hop => ?_, fun op b1 hop => ?_,
    fun d b1 b2 => ⟨absentOperand_eq_some_one, absentOperand_eq_some_two⟩⟩
  · exact decode_of_lookup_some (d := descNop) rfl (absentOperand_zero b1 b2)
  · exact decode_of_lookup_some (d := descXorA) rfl (absentOperand_zero b1 b2)
  · obtain rfl | rfl := hop
    · exact decode_of_absentOperand (d := descJpA16) rfl (absentOperand_none (by decide) b2)
    · exact decode_of_absentOperand (d := descLdHlD16) rfl (absentOperand_none (by decide) b2)
  · obtain rfl | rfl := hop
    · exact decode_of_absentOperand (d := descJpA16) rfl (absentOperand_two (some b1) none)
    · exact decode_of_absentOperand (d := descLdHlD16) rfl (absentOperand_two (some b1) none)

end Sys2Proof.Proofs

/-! SUPPORT. The pair views and the flag byte as numbers (R21, R22, R26). -/

namespace Sys2Proof.Machine

/-- A pair view is the immediate of its two halves, low byte first (R21, R58). -/
theorem pairOf_eq_imm16 (high low : Byte) : pairOf high low = imm16 low high := BitVec.or_comm _ _

/-- Splitting a word and composing the halves gives it back (R21, R22). -/
@[simp] theorem pairOf_highByte_lowByte (v : Word) : pairOf (highByte v) (lowByte v) = v := by
  rw [pairOf_eq_imm16, imm16_lowByte_highByte]

/-- The low byte holds bits 7..0 as they are (R7). -/
theorem getLsbD_lowByte (v : Word) {k : Nat} (hk : k < 8) : (lowByte v).getLsbD k = v.getLsbD k := by
  simp [lowByte, hk]

/-- The flag byte as a sum of weights (R26). -/
theorem getF_toNat (s : State) :
    s.getF.toNat = 128 * s.zf.toNat + 64 * s.nf.toNat + 32 * s.hf.toNat + 16 * s.cf.toNat := by
  have layout : ∀ z n h c : Bool,
      ((flagByte z <<< 7) ||| (flagByte n <<< 6) ||| (flagByte h <<< 5) ||| (flagByte c <<< 4)).toNat =
        128 * z.toNat + 64 * n.toNat + 32 * h.toNat + 16 * c.toNat := by decide
  exact layout s.zf s.nf s.hf s.cf

/-- A bit of a byte as a number. -/
theorem toNat_getLsbD (f : Byte) (k : Nat) : (f.getLsbD k).toNat = f.toNat / 2 ^ k % 2 := Nat.toNat_testBit _ _

/-- An AF write puts the high byte in A and drops the low four bits of the flag byte (R21, R26). -/
theorem set16_AF_getF_toNat (s : State) (v : Word) : (s.set16 .AF v).getF.toNat = (lowByte v).toNat / 16 * 16 := by
  have hf := (lowByte v).isLt
  rw [getF_toNat]
  simp only [State.set16, State.setFlags_zf, State.setFlags_nf, State.setFlags_hf, State.setFlags_cf, allFlags,
    maskedFlag_true, flagsOfByte, toNat_getLsbD]
  omega

end Sys2Proof.Machine

/-! PROOFS. The other statements about the register file and the ALU: pair views, the flag byte, XOR. -/

namespace Sys2Proof.Proofs

open Sys2Proof.Machine

/-- Settles O2: the views are the definitions; the flags that AF writes are bits 7..4 of the word, by `getLsbD_lowByte`. -/
theorem pairViewsComposeAndSplit : Obligations.PairViewsComposeAndSplit := by
  refine fun s v => ⟨rfl, rfl, rfl, rfl, rfl, rfl, rfl, ?_⟩
  rw [← getLsbD_lowByte v (show 7 < 8 by decide), ← getLsbD_lowByte v (show 6 < 8 by decide),
    ← getLsbD_lowByte v (show 5 < 8 by decide), ← getLsbD_lowByte v (show 4 < 8 by decide)]
  rfl

/-- Settles O3: the halves compose to the word; AF composes with the flag byte, which drops the low four bits. -/
theorem pairRoundTrip : Obligations.PairRoundTrip := by
  intro s v
  refine ⟨pairOf_highByte_lowByte v, highByte_toNat v, lowByte_toNat v, pairOf_highByte_lowByte v,
    pairOf_highByte_lowByte v, ?_⟩
  have hAF : ((s.set16 .AF v).get16 .AF).toNat = v.toNat % 256 / 16 * 16 + 256 * (v.toNat / 256) := by
    rw [State.get16, pairOf_eq_imm16, imm16_toNat, set16_AF_getF_toNat, lowByte_toNat]
    exact congrArg (_ + 256 * ·) (highByte_toNat v)
  rw [← BitVec.toNat_inj, hAF]
  omega

/-- Settles O5: `getF_toNat`. -/
theorem flagByteLayout : Obligations.FlagByteLayout := getF_toNat

/-- Settles O32: XOR gives 0x00 exactly for equal bytes, the rest is the ALU's definition. -/
theorem aluXorResultAndFlags : Obligations.AluXorResultAndFlags := by
  refine fun a b => ⟨rfl, rfl, ?_, rfl, rfl, rfl⟩
  rw [alu, beq_iff_eq]
  exact BitVec.xor_eq_zero_iff

end Sys2Proof.Proofs

/-! SUPPORT. Canonical memory: what it lists it reads, what an image becomes in it; the created block and its outputs (R36,
R105, R116). -/

namespace Sys2Proof.Machine

/-- In a canonical list, a byte that is not the unlisted one stands at or above the list's bound (R116). -/
theorem Memory.le_of_read_ne_unlisted {m : Memory} {lo x : Nat} (h : Memory.wfFrom lo m = true)
    (hx : m.read x ≠ Memory.unlisted) : lo ≤ x :=
  Nat.le_of_not_lt fun hlt => hx (Memory.read_eq_unlisted_of_lt h hlt)

@[simp] theorem Memory.read_cons_self (a : Nat) (v : Byte) (m : Memory) : Memory.read ((a, v) :: m) a = v := if_pos rfl

/-- Canonical lists that read alike start alike and go on alike (R35, log 17). -/
theorem Memory.eq_of_read_eq {m m' : Memory} {lo : Nat} (h : Memory.wfFrom lo m = true) (h' : Memory.wfFrom lo m' = true)
    (hread : ∀ x, x < Config.memSize → m.read x = m'.read x) : m = m' := by
  induction m generalizing lo m' with
  | nil =>
    cases m' with
    | nil => rfl
    | cons e' m' =>
      obtain ⟨a', v'⟩ := e'
      obtain ⟨-, ha', hv', -⟩ := (Memory.wfFrom_cons lo a' v' m').1 h'
      exact absurd ((hread a' ha').trans (Memory.read_cons_self a' v' m')).symm hv'
  | cons e m ih =>
    obtain ⟨a, v⟩ := e
    obtain ⟨-, ha, hv, hm⟩ := (Memory.wfFrom_cons lo a v m).1 h
    cases m' with
    | nil => exact absurd ((Memory.read_cons_self a v m).symm.trans (hread a ha)) hv
    | cons e' m' =>
      obtain ⟨a', v'⟩ := e'
      obtain ⟨-, ha', hv', hm'⟩ := (Memory.wfFrom_cons lo a' v' m').1 h'
      have hle : a ≤ a' := Memory.le_of_read_ne_unlisted (m := (a, v) :: m)
        ((Memory.wfFrom_cons _ _ _ _).2 ⟨le_rfl, ha, hv, hm⟩) (by rwa [hread a' ha', Memory.read_cons_self])
      have hge : a' ≤ a := Memory.le_of_read_ne_unlisted (m := (a', v') :: m')
        ((Memory.wfFrom_cons _ _ _ _).2 ⟨le_rfl, ha', hv', hm'⟩) (by rwa [← hread a ha, Memory.read_cons_self])
      obtain rfl := Nat.le_antisymm hle hge
      obtain rfl : v = v' := by simpa using hread a ha
      rw [ih hm hm' fun x hx => ?_]
      by_cases hxa : x = a
      · rw [hxa, Memory.read_eq_unlisted_of_lt hm (Nat.lt_succ_self a),
          Memory.read_eq_unlisted_of_lt hm' (Nat.lt_succ_self a)]
      · simpa [Memory.read_cons, hxa] using hread x hx

/-- An image reads as its bytes from `base` upwards and as 0x00 above them (R116). -/
theorem Memory.read_ofBytes {bytes : List Byte} {base : Nat} (h : base + bytes.length ≤ Config.memSize) (k : Nat) :
    (Memory.ofBytes base bytes).read (base + k) = bytes.getD k Memory.unlisted := by
  induction bytes generalizing base k with
  | nil => rfl
  | cons v bytes ih =>
    have hlen : base + 1 + bytes.length ≤ Config.memSize := by
      rw [List.length_cons] at h
      omega
    have hbase : (Memory.ofBytes (base + 1) bytes).read base = Memory.unlisted :=
      Memory.read_eq_unlisted_of_lt (Memory.wfFrom_ofBytes bytes _ hlen) (Nat.lt_succ_self base)
    rw [Memory.ofBytes, Memory.read_put v hbase]
    cases k with
    | zero => exact if_pos rfl
    | succ k => rw [if_neg (by omega), ← Nat.add_assoc, Nat.add_right_comm, ih hlen, List.getD_cons_succ]

/-- Boot answers a state exactly for an image that fits, and it is the created block over that image (R116, R118). -/
theorem boot_eq_ok {bytes : List Byte} {s : State} :
    boot (some bytes) = .ok s ↔
      bytes.length ≤ Config.memSize ∧ s = State.created (Memory.ofBytes 0 bytes) := by
  rw [boot]
  split
  · next h => exact ⟨fun hs => ⟨h, (Except.ok.inj hs).symm⟩, fun ⟨_, hs⟩ => by rw [hs]⟩
  · next h => exact ⟨nofun, fun ⟨hle, _⟩ => absurd hle h⟩

/-- A booted block's memory reads as the image, and as 0x00 above it (R116). -/
theorem load_of_boot {bytes : List Byte} {s : State} (h : boot (some bytes) = .ok s) (addr : Word) :
    s.mem.load addr = bytes.getD addr.toNat Memory.unlisted := by
  obtain ⟨hlen, rfl⟩ := boot_eq_ok.1 h
  have hread := Memory.read_ofBytes (base := 0) (by rwa [Nat.zero_add]) addr.toNat
  rwa [Nat.zero_add] at hread

/-- A booted block's memory is in canonical form (log 17). -/
theorem wf_of_boot {bytes : List Byte} {s : State} (h : boot (some bytes) = .ok s) : s.mem.wf = true := by
  obtain ⟨hlen, rfl⟩ := boot_eq_ok.1 h
  exact Memory.wfFrom_ofBytes bytes 0 (by rwa [Nat.zero_add])

/-- A booted block is the created block over its own memory (R118). -/
theorem eq_created_of_boot {bytes : List Byte} {s : State} (h : boot (some bytes) = .ok s) : s = State.created s.mem := by
  obtain ⟨-, rfl⟩ := boot_eq_ok.1 h
  rfl

theorem pc_of_boot {bytes : List Byte} {s : State} (h : boot (some bytes) = .ok s) : s.pc = 0x0100#16 := by
  rw [eq_created_of_boot h]
  rfl

theorem fsm_of_boot {bytes : List Byte} {s : State} (h : boot (some bytes) = .ok s) : s.fsm = .running := by
  rw [eq_created_of_boot h]
  rfl

/-- The flag byte at reset (R26, R36). -/
theorem created_getF (m : Memory) : (State.created m).getF = 0x00#8 := by
  apply BitVec.eq_of_toNat_eq
  rw [getF_toNat]
  rfl

/-- The output `halted` in terms of the FSM state (R105). -/
theorem State.halted_iff (s : State) : s.halted = true ↔ ∃ e, s.fsm = .halted e := by
  unfold State.halted
  split
  · next h => simp [h]
  · next e h => simp [h]

/-- The output `halted` is off exactly in RUNNING (R105). -/
theorem State.halted_eq_false_iff (s : State) : s.halted = false ↔ s.fsm = .running := by
  unfold State.halted
  split
  · next h => simp [h]
  · next e h => simp [h]

/-- The output `error` is the record of the halt (R105). -/
theorem State.error_eq_some_iff (s : State) (e : CoreError) : s.error = some e ↔ s.fsm = .halted e := by
  unfold State.error
  split
  · next h => simp [h]
  · next h => simp [h]

/-- The output `error` is empty exactly in RUNNING (R32, R105). -/
theorem State.error_eq_none_iff (s : State) : s.error = none ↔ s.fsm = .running := by
  unfold State.error
  split
  · next h => simp [h]
  · next h => simp [h]

/-- Where reset cannot happen, the reset event has no answer (R114, log 12). -/
theorem Run.resetEvent_eq_none {r : Run} (hsteps : r.steps ≠ 0) (hrun : r.state.halted = false) : r.resetEvent = none := by
  rw [Run.resetEvent, Run.mayReset, hrun, Bool.or_false, beq_false_of_ne hsteps]
  rfl

end Sys2Proof.Machine

/-! PROOFS. The other statements about memory, boot, reset and the outputs. -/

namespace Sys2Proof.Proofs

open Sys2Proof.Machine Sys2Proof.Safety

/-- Settles O13: every address below 65536 is some word's, so `Memory.eq_of_read_eq` applies. -/
theorem memoriesReadingAlikeAreEqual : Obligations.MemoriesReadingAlikeAreEqual := by
  refine fun m m' h h' hload => Memory.eq_of_read_eq h h' fun x hx => ?_
  have hload := hload (trunc16 x)
  rwa [Memory.load, Memory.load, toNat_trunc16_of_le (Nat.le_of_lt_succ hx)] at hload

/-- Settles O15: no run changes memory, by `run_keeps_mem`. -/
theorem memoryNeverChanges : Obligations.MemoryNeverChanges := fun _ _ _ => run_keeps_mem

/-- Settles O7: the three answers of boot, the image read back by `load_of_boot`. -/
theorem bootLoadsImageAndResets : Obligations.BootLoadsImageAndResets := by
  refine ⟨rfl, fun bytes => ⟨fun hlong => ?_, fun hfit => ?_⟩⟩
  · exact if_neg (Nat.not_le.2 hlong)
  · have hboot : boot (some bytes) = .ok (State.created (Memory.ofBytes 0 bytes)) := boot_eq_ok.2 ⟨hfit, rfl⟩
    refine ⟨_, hboot, rfl, rfl, rfl, rfl, rfl, rfl, rfl, rfl, rfl, rfl, created_getF _, rfl, rfl, wf_of_boot hboot,
      fun addr => ?_⟩
    rw [load_of_boot hboot]
    split
    · next h => exact List.getD_eq_getElem _ _ h
    · next h => exact List.getD_eq_default _ _ (Nat.not_lt.1 h)

/-- Settles O8: the two answers of the reset event. -/
theorem resetEventKeepsMemory : Obligations.ResetEventKeepsMemory := by
  refine fun r => ⟨fun h => ?_, fun hsteps hrun => ?_⟩
  · rw [← State.halted_iff] at h
    exact Run.resetEvent_eq_some.2 ⟨h, rfl⟩
  · exact Run.resetEvent_eq_none hsteps ((State.halted_eq_false_iff _).2 hrun)

/-- Settles O9: a created block is RUNNING, and an image that fits becomes canonical memory. -/
theorem resetMeetsInvariant : Obligations.ResetMeetsInvariant :=
  ⟨⟨Memory.wf_reset, recordTrue_of_running rfl⟩,
    fun _ _ hboot => ⟨wf_of_boot hboot, recordTrue_of_running (fsm_of_boot hboot)⟩⟩

/-- Settles O49: the outputs are the FSM state, and a halted state has no successor. -/
theorem outputsReportTheHalt : Obligations.OutputsReportTheHalt := fun s =>
  ⟨s.halted_iff, s.error_eq_some_iff, s.error_eq_none_iff, fun e he => by rw [step, he]⟩

end Sys2Proof.Proofs

/-! SUPPORT. What each instruction and each run leaves alone: SP, and the data registers an instruction does not name. -/

namespace Sys2Proof.Machine

@[simp] theorem committed_sp (i : Instr) (s : State) : (committed i s).sp = s.sp := by
  cases i <;> simp [committed]

/-- No instruction reads SP: with another SP before, the committed state differs in SP only (R27). -/
theorem committed_setSP (i : Instr) (s : State) (v : Word) : committed i (s.setSP v) = (committed i s).setSP v := by
  cases i <;> rfl

@[simp] theorem State.setPC_get8 (s : State) (v : Word) (r : Reg8) : (s.setPC v).get8 r = s.get8 r := by cases r <;> rfl

@[simp] theorem State.setFlags_get8 (s : State) (mask val : FlagBits) (r : Reg8) :
    (s.setFlags mask val).get8 r = s.get8 r := by cases r <;> rfl

@[simp] theorem State.raise_get8 (s : State) (e : CoreError) (r : Reg8) : (s.raise e).get8 r = s.get8 r := by
  cases r <;> rfl

theorem State.get8_set16_HL_of_ne (s : State) (v : Word) {r : Reg8} (hH : r ≠ .H) (hL : r ≠ .L) :
    (s.set16 .HL v).get8 r = s.get8 r := by
  rw [State.set16, State.get8_set8_of_ne _ _ hL, State.get8_set8_of_ne _ _ hH]

/-- Every instruction's next state is its committed state or its AddressRangeError on the start state (R79, R97, R100). -/
theorem exec_eq_next {i : Instr} {s t : State} (h : exec i s = .next t) :
    t = committed i s ∨ t = s.raise (.addressRange i.descriptor.opcode s.pc 0x10000) := by
  rw [exec_eq] at h
  cases h
  split
  · exact .inl rfl
  · exact .inr rfl

end Sys2Proof.Machine

/-! PROOFS. The frames of the instructions, and the stack pointer. -/

namespace Sys2Proof.Proofs

open Sys2Proof.Machine

/-- Settles O6: neither end of an instruction writes or reads SP, so a run keeps the SP that boot gives. -/
theorem stackPointerIsUntouched : Obligations.StackPointerIsUntouched := by
  refine ⟨fun _ _ => rfl, fun i s t v h => ?_, fun bytes s t n hboot hrun => ?_⟩
  · rw [exec_eq] at h
    cases h
    refine ⟨?_, ?_⟩
    · split
      · exact committed_sp i s
      · exact State.raise_sp s _
    · rw [exec_eq, committed_setSP, State.setSP_pc]
      split
      · rfl
      · rfl
  · rw [run_keeps (f := State.sp) committed_sp State.raise_sp hrun, eq_created_of_boot hboot]
    rfl

/-- Settles O28: NOP and the jump commit a new PC and nothing else; their error changes the FSM only. -/
theorem frameOfNopAndJump : Obligations.FrameOfNopAndJump := by
  intro i s t hi h
  obtain ⟨v, hcommit⟩ : ∃ v, committed i s = s.setPC v := by
    obtain rfl | ⟨target, rfl⟩ := hi
    · exact ⟨_, rfl⟩
    · exact ⟨_, rfl⟩
  obtain rfl | rfl := exec_eq_next h
  · rw [hcommit]
    exact ⟨State.setPC_get8 s v, rfl, rfl, fun _ => rfl, rfl, .inl rfl⟩
  · exact ⟨State.raise_get8 s _, rfl, rfl, fun _ => rfl, rfl, .inr ⟨rfl, rfl⟩⟩

/-- Settles O29: XOR A commits A, the flags and PC; its error changes the FSM only. -/
theorem frameOfXorA : Obligations.FrameOfXorA := by
  intro s t h
  obtain rfl | rfl := exec_eq_next h
  · refine ⟨fun r hr => ?_, rfl, fun _ => rfl, rfl, .inl rfl⟩
    rw [committed, State.setPC_get8, State.setFlags_get8, State.get8_set8_of_ne s _ hr]
  · exact ⟨fun r _ => State.raise_get8 s _ r, rfl, fun _ => rfl, rfl, .inr ⟨rfl, rfl, rfl, rfl⟩⟩

/-- Settles O30: LD HL,d16 commits H, L and PC; its error changes the FSM only. -/
theorem frameOfLoadHL : Obligations.FrameOfLoadHL := by
  intro v s t h
  obtain rfl | rfl := exec_eq_next h
  · refine ⟨fun r hH hL => ?_, rfl, rfl, fun _ => rfl, rfl, .inl rfl⟩
    rw [committed, State.setPC_get8, State.get8_set16_HL_of_ne s v hH hL]
  · exact ⟨fun r _ _ => State.raise_get8 s _ r, rfl, rfl, fun _ => rfl, rfl, .inr ⟨rfl, rfl, rfl, rfl⟩⟩

end Sys2Proof.Proofs

/-! SUPPORT. The stages (R72 to R79), the written step function (R80) and `step` compared, branch by branch of the table. -/

namespace Sys2Proof.Machine

open Sys2Proof.Safety

/-- In RUNNING, a byte with no row ends the stages in its error (R75, R96). -/
theorem cycle_of_lookup_none {s : State} (hrun : s.fsm = .running) (h : lookup (s.mem.load s.pc) = none)
    (p : PcOverflow) : cycle p s = s.raise (.unsupportedOpcode (s.mem.load s.pc) s.pc) := by
  rw [cycle, hrun]
  dsimp only
  rw [h]

/-- In RUNNING, an absent operand byte of the row at PC ends the stages in its error (R76, R97). -/
theorem cycle_of_absentOperand {p : PcOverflow} {s : State} {d : Descriptor} {k : Nat} (hrun : s.fsm = .running)
    (hd : lookup (s.mem.load s.pc) = some d)
    (hab : absentOperand d.width (candidate p s 1) (candidate p s 2) = some k) :
    cycle p s = s.raise (.addressRange (s.mem.load s.pc) s.pc (s.pc.toNat + k)) := by
  rw [cycle, hrun]
  dsimp only
  rw [hd]
  dsimp only
  rw [hab, lookup_opcode hd]

/-- The pending writes of XOR A (R77, R91). -/
theorem applyEffect_descXorA (imm : Word) (s : State) :
    applyEffect descXorA imm s = { s with a := 0x00#8, zf := true, nf := false, hf := false, cf := false } := by
  rw [applyEffect, alu_xor_self]
  rfl

/-- The pending writes of LD HL,d16: the operand bytes themselves (R77, R93). -/
theorem applyEffect_descLdHlD16 (lo hi : Byte) (s : State) :
    applyEffect descLdHlD16 (imm16 lo hi) s = { s with h := hi, l := lo } := by
  calc applyEffect descLdHlD16 (imm16 lo hi) s
      = { s with h := highByte (imm16 lo hi), l := lowByte (imm16 lo hi) } := rfl
    _ = { s with h := hi, l := lo } := by rw [highByte_imm16, lowByte_imm16]

/-- Stages 4 to 6 of a relative row are the relative commit of its pending writes (R77, R78). -/
theorem commitRelative_applyEffect {d : Descriptor} (h : d.pcRule = .relative) (p : PcOverflow) (imm : Word) (s : State) :
    commitRelative p d s (applyEffect d imm s) = .next (completeRow p d imm s) := by
  rw [commitRelative, completeRow, resolvePc_relative h]
  cases nextPc p s.pc d.width with
  | ok next => rfl
  | error n => rfl

/-- The instruction of a row whose operand bytes all have an address is that row's stages 4 to 6 (R77, R78, R79). -/
theorem exec_instrOf {op : Byte} {d : Descriptor} (hd : lookup op = some d) (imm : Word) {s : State}
    (hfit : (d.width : Nat) = 2 → s.pc.toNat + 2 ≤ 0xFFFF) :
    exec (instrOf d.mnemonic imm) s = .next (completeRow .fault d imm s) := by
  obtain ⟨-, rfl⟩ | ⟨-, rfl⟩ | ⟨-, rfl⟩ | ⟨-, rfl⟩ := lookup_eq_some.1 hd
  · exact commitRelative_applyEffect rfl .fault imm s
  · exact (withOperands_fault_two rfl s _).trans (if_pos (hfit rfl))
  · refine Eq.trans (b := execXorA s) rfl (.trans ?_ (commitRelative_applyEffect rfl .fault imm s))
    rw [execXorA, applyEffect_descXorA, alu_xor_self]
    rfl
  · exact ((withOperands_fault_two rfl s _).trans (if_pos (hfit rfl))).trans (commitRelative_applyEffect rfl .fault imm s)

/-- From RUNNING, a step answers the state of the stages, in each of the three ends of fetch and decode (R75 to R79). -/
theorem step_eq_cycle {s : State} (hrun : s.fsm = .running) : step s = .next (cycle .fault s) := by
  cases hd : lookup (s.mem.load s.pc) with
  | none =>
    rw [cycle_of_lookup_none hrun hd]
    exact step_of_decode_error hrun (decode_of_lookup_none hd _ _)
  | some d =>
    cases hab : absentOperand d.width (candidate .fault s 1) (candidate .fault s 2) with
    | some k => rw [step_of_absentOperand hrun hd hab, cycle_of_absentOperand hrun hd hab]
    | none =>
      rw [cycle_of_row hrun hd hab, step_of_decode_ok hrun (decode_of_lookup_some hd hab)]
      exact exec_instrOf hd _ ((absentOperand_fault_eq_none hd).1 hab)

/-! R80 as written. -/

/-- R80 reads a candidate byte as the machine does (R67). -/
theorem candidate_fault_eq_read (s : State) (k : Nat) :
    candidate .fault s k = if s.pc.toNat + k ≤ 0xFFFF then some (s.mem.read (s.pc.toNat + k)) else none := by
  split
  · next h => rw [candidate_fault_of_le h, Memory.load, toNat_trunc16_of_le h]
  · next h => exact (candidate_fault_eq_none s k).2 (Nat.not_le.1 h)

/-- R80's relative commit of a row's pending writes is stages 4 to 6 (R78, R80). -/
theorem completeRow_eq_r80CommitRel {d : Descriptor} (h : d.pcRule = .relative) (imm : Word) (s : State) :
    completeRow .fault d imm s = r80CommitRel s (applyEffect d imm s) d.opcode d.width := by
  rw [completeRow, resolvePc_relative h, r80CommitRel]
  by_cases hfit : s.pc.toNat + 1 + d.width ≤ 0xFFFF
  · rw [nextPc_of_le hfit, if_neg (Nat.not_lt.2 hfit)]
    rfl
  · rw [nextPc_fault_of_gt (Nat.not_le.1 hfit), if_pos (Nat.not_le.1 hfit)]
    rfl

/-- From RUNNING, R80's step is the stages, row by row: with no operand byte, or with the first absent, the second absent or
both there (R75 to R80). -/
theorem r80Step_eq_cycle {s : State} (hrun : s.fsm = .running) : r80Step s = cycle .fault s := by
  rw [r80Step, cycle, hrun]
  dsimp only
  rw [← hrun, ← Memory.load, ← candidate_fault_eq_read, ← candidate_fault_eq_read]
  generalize candidate .fault s 1 = b1
  generalize candidate .fault s 2 = b2
  cases hd : lookup (s.mem.load s.pc) with
  | none =>
    obtain ⟨h1, h2, h3, h4⟩ := lookup_eq_none.1 hd
    rw [if_neg h1, if_neg h3, if_neg h4, if_neg h2]
    rfl
  | some d =>
    obtain ⟨hop, rfl⟩ | ⟨hop, rfl⟩ | ⟨hop, rfl⟩ | ⟨hop, rfl⟩ := lookup_eq_some.1 hd <;> rw [hop]
    · exact (completeRow_eq_r80CommitRel (d := descNop) rfl _ s).symm
    · match b1, b2 with
      | none, _ => rfl
      | some _, none => rfl
      | some _, some _ => rfl
    · rw [← applyEffect_descXorA (imm16 (b1.getD 0) (b2.getD 0)) s]
      exact (completeRow_eq_r80CommitRel (d := descXorA) rfl _ s).symm
    · match b1, b2 with
      | none, _ => rfl
      | some _, none => rfl
      | some lo, some hi =>
        refine Eq.trans ?_ (completeRow_eq_r80CommitRel (d := descLdHlD16) rfl (imm16 lo hi) s).symm
        rw [applyEffect_descLdHlD16]
        rfl

end Sys2Proof.Machine

/-! SUPPORT. The stages under `wrap` beside those under `fault` (R67, R76, R78), and runs that share PC, memory and FSM. -/

namespace Sys2Proof.Machine

open Sys2Proof.Safety

/-- A candidate that the default reads, `wrap` reads too (R67). -/
theorem candidate_wrap_eq_fault {s : State} {k : Nat} (h : s.pc.toNat + k ≤ 0xFFFF) :
    candidate .wrap s k = candidate .fault s k := (candidate_fault_of_le h).symm

/-- Under `wrap` a row at PC always completes (R76). -/
theorem cycle_wrap_of_row {s : State} {d : Descriptor} (hrun : s.fsm = .running) (hd : lookup (s.mem.load s.pc) = some d) :
    cycle .wrap s =
      completeRow .wrap d (imm16 ((candidate .wrap s 1).getD 0) ((candidate .wrap s 2).getD 0)) s :=
  cycle_of_row hrun hd (absentOperand_some_some _ _ _)

/-- Under `wrap` every next PC is resolved (R78). -/
theorem exists_resolvePc_wrap (d : Descriptor) (pc imm : Word) : ∃ next, resolvePc .wrap d pc imm = .ok next := by
  cases h : d.pcRule with
  | relative => exact ⟨_, (resolvePc_relative h _ _ _).trans (nextPc_wrap _ _)⟩
  | absoluteImm16 => exact ⟨_, resolvePc_absolute h _ _ _⟩

/-- From RUNNING, a byte with a row stays in RUNNING under `wrap` (R78). -/
theorem cycle_wrap_fsm {s : State} {d : Descriptor} (hrun : s.fsm = .running) (hd : lookup (s.mem.load s.pc) = some d) :
    (cycle .wrap s).fsm = .running := by
  obtain ⟨next, hnext⟩ := exists_resolvePc_wrap d s.pc
    (imm16 ((candidate .wrap s 1).getD 0) ((candidate .wrap s 2).getD 0))
  rw [cycle_wrap_of_row hrun hd, (completeRow_of_ok hnext).2, hrun]

/-- A row of width 0 does not look at the immediate (R62). -/
theorem completeRow_imm_irrel {op : Byte} {d : Descriptor} (hd : lookup op = some d) (hw : (d.width : Nat) = 0)
    (p : PcOverflow) (imm imm' : Word) (s : State) : completeRow p d imm s = completeRow p d imm' s := by
  obtain ⟨-, rfl⟩ | ⟨-, rfl⟩ | ⟨-, rfl⟩ | ⟨-, rfl⟩ := lookup_eq_some.1 hd
  · rfl
  · cases hw
  · rfl
  · cases hw

/-- A row that completes without an address past the top completes alike under `wrap` (R78). -/
theorem completeRow_wrap_eq_fault {d : Descriptor} {s : State}
    (h : d.pcRule = .relative → s.pc.toNat + 1 + d.width ≤ 0xFFFF) (imm : Word) :
    completeRow .wrap d imm s = completeRow .fault d imm s := by
  have hres : resolvePc .wrap d s.pc imm = resolvePc .fault d s.pc imm := by
    cases hrule : d.pcRule with
    | relative => rw [resolvePc_relative hrule, resolvePc_relative hrule, nextPc_of_le (h hrule), nextPc_of_le (h hrule)]
    | absoluteImm16 => rw [resolvePc_absolute hrule, resolvePc_absolute hrule]
  rw [completeRow, completeRow, hres]

/-- A row whose operand bytes and next PC all have an address runs alike under both values of `PC_OVERFLOW` (R67, R78). -/
theorem cycle_wrap_eq_fault_of_row {s : State} {d : Descriptor} (hrun : s.fsm = .running)
    (hd : lookup (s.mem.load s.pc) = some d)
    (hab : absentOperand d.width (candidate .fault s 1) (candidate .fault s 2) = none)
    (hpc : d.pcRule = .relative → s.pc.toNat + 1 + d.width ≤ 0xFFFF) : cycle .wrap s = cycle .fault s := by
  rw [cycle_wrap_of_row hrun hd, cycle_of_row hrun hd hab, completeRow_wrap_eq_fault hpc]
  obtain hw | hw := lookup_width hd
  · exact completeRow_imm_irrel hd hw _ _ _ _
  · have hfit := (absentOperand_fault_eq_none hd).1 hab hw
    rw [candidate_wrap_eq_fault hfit, candidate_wrap_eq_fault (k := 1) (by omega)]

/-- From RUNNING, `wrap` ends where the default ends unless the default raises AddressRangeError (R78). -/
theorem cycle_wrap_eq_fault {s : State} (hrun : s.fsm = .running)
    (hno : ∀ op pc addr, (cycle .fault s).fsm ≠ .halted (.addressRange op pc addr)) :
    cycle .wrap s = cycle .fault s := by
  cases hd : lookup (s.mem.load s.pc) with
  | none => rw [cycle_of_lookup_none hrun hd, cycle_of_lookup_none hrun hd]
  | some d =>
    cases hab : absentOperand d.width (candidate .fault s 1) (candidate .fault s 2) with
    | some k => exact absurd (congrArg State.fsm (cycle_of_absentOperand hrun hd hab)) (hno _ _ _)
    | none =>
      refine cycle_wrap_eq_fault_of_row hrun hd hab fun hrel => Nat.le_of_not_lt fun hpast => ?_
      have hraise := completeRow_of_error (imm := imm16 ((candidate .fault s 1).getD 0) ((candidate .fault s 2).getD 0))
        ((resolvePc_relative hrel _ _ _).trans (nextPc_fault_of_gt hpast))
      exact hno _ _ _ (congrArg State.fsm ((cycle_of_row hrun hd hab).trans hraise))

/-- No instruction needs an address past the top from a PC below 0xFFFD (R97). -/
theorem le_firstBadPc (op : Byte) : 0xFFFD ≤ firstBadPc op := by
  unfold firstBadPc
  split
  · decide
  · split <;> decide

/-- A run of `n + 1` steps that answers a state is a step and such a run of `n` (R85). -/
theorem core_run_succ_eq_next {n : Nat} {s t : State} :
    Sys2Proof.core.run (n + 1) s = .next t ↔ ∃ u, step s = .next u ∧ Sys2Proof.core.run n u = .next t := by
  rw [core_run_succ]
  cases step s with
  | next u => simp
  | fault r => simp
  | refused r => simp

/-! Two states that differ in data registers, flags and SP only. -/

/-- Everything that steers a run: PC, memory and the FSM state. -/
structure SameControl (s s' : State) : Prop where
  pc : s.pc = s'.pc
  mem : s.mem = s'.mem
  fsm : s.fsm = s'.fsm

/-- Fetch and decode read PC and memory alone (R73, R74). -/
theorem SameControl.fetchDecode_eq {s s' : State} (h : SameControl s s') : fetchDecode s = fetchDecode s' := by
  simp only [fetchDecode, candidate, h.pc, h.mem]

theorem SameControl.raise {s s' : State} (h : SameControl s s') (e : CoreError) : SameControl (s.raise e) (s'.raise e) :=
  ⟨h.pc, h.mem, rfl⟩

/-- The next PC of a commit rests on PC and the instruction alone (R29). -/
theorem SameControl.committed {s s' : State} (h : SameControl s s') (i : Instr) :
    SameControl (committed i s) (committed i s') := by
  refine ⟨?_, by rw [committed_mem, committed_mem, h.mem], by rw [committed_fsm, committed_fsm, h.fsm]⟩
  cases i with
  | nop => exact congrArg (fun pc : Word => trunc16 (pc.toNat + 1)) h.pc
  | jpA16 target => rfl
  | xorA => exact congrArg (fun pc : Word => trunc16 (pc.toNat + 1)) h.pc
  | ldHlD16 v => exact congrArg (fun pc : Word => trunc16 (pc.toNat + 3)) h.pc

/-- An instruction ends alike in two states of the same control. -/
theorem SameControl.exec {s s' t : State} {i : Instr} (h : SameControl s s') (hexec : exec i s = .next t) :
    ∃ t', exec i s' = .next t' ∧ SameControl t t' := by
  rw [exec_eq] at hexec
  cases hexec
  refine ⟨_, exec_eq i s', ?_⟩
  rw [← h.pc]
  split
  · exact h.committed i
  · exact h.raise _

/-- A step ends alike in two states of the same control. -/
theorem SameControl.step {s s' t : State} (h : SameControl s s') (hstep : step s = .next t) :
    ∃ t', step s' = .next t' ∧ SameControl t t' := by
  obtain ⟨hrun, hend⟩ := step_eq_next hstep
  have hrun' : s'.fsm = .running := h.fsm.symm.trans hrun
  rw [Machine.step, hrun']
  dsimp only
  rw [← h.fetchDecode_eq]
  obtain ⟨e, he, rfl⟩ | ⟨i, hi, hexec⟩ := hend
  · rw [he]
    exact ⟨_, rfl, h.raise e⟩
  · rw [hi]
    exact h.exec hexec

/-- A run ends alike in two states of the same control. -/
theorem SameControl.run {n : Nat} {s s' t : State} (h : SameControl s s') (hrun : Sys2Proof.core.run n s = .next t) :
    ∃ t', Sys2Proof.core.run n s' = .next t' ∧ SameControl t t' := by
  induction n generalizing s s' with
  | zero =>
    cases hrun
    exact ⟨s', rfl, h⟩
  | succ n ih =>
    obtain ⟨u, hstep, hrun⟩ := core_run_succ_eq_next.1 hrun
    obtain ⟨u', hstep', hu⟩ := h.step hstep
    obtain ⟨t', hrun', ht⟩ := ih hu hrun
    exact ⟨t', core_run_succ_eq_next.2 ⟨u', hstep', hrun'⟩, ht⟩

end Sys2Proof.Machine

/-! PROOFS. The other statements about the cycle: its three written forms, `wrap`, bounded runs, what steers a run. -/

namespace Sys2Proof.Proofs

open Sys2Proof.Machine Sys2Proof.Safety

/-- Settles O33: `step_of_decode_ok`; every instruction is well formed. -/
theorem stepRunsDecodedInstruction : Obligations.StepRunsDecodedInstruction := fun _ _ hrun hdec _ =>
  step_of_decode_ok hrun hdec

/-- Settles O40: `step_eq_cycle`, the default being `fault`. -/
theorem stagesAgreeWithStep : Obligations.StagesAgreeWithStep := fun _ => step_eq_cycle

/-- Settles O39: both are the stages, by `step_eq_cycle` and `r80Step_eq_cycle`. -/
theorem stepIsTheWrittenStepFunction : Obligations.StepIsTheWrittenStepFunction := by
  refine fun s => ⟨fun hrun => ?_, fun e he => by rw [r80Step, he]⟩
  rw [r80Step_eq_cycle hrun, step_eq_cycle hrun]

/-- Settles O41: a row completes under `wrap`, a byte with no row ends alike, and up to 0xFFFC the default raises no
AddressRangeError, since no row's `firstBadPc` is that low. -/
theorem wrapDiffersOnlyPastTheTop : Obligations.WrapDiffersOnlyPastTheTop := by
  intro s hrun
  refine ⟨fun op pc addr h => ?_, fun hrow => ?_, fun hnone => cycle_of_lookup_none hrun hnone .wrap,
    cycle_wrap_eq_fault hrun, fun hle => cycle_wrap_eq_fault hrun fun op pc addr h => ?_⟩
  · cases hd : lookup (s.mem.load s.pc) with
    | none =>
      rw [cycle_of_lookup_none hrun hd] at h
      cases h
    | some d =>
      rw [cycle_wrap_fsm hrun hd] at h
      cases h
  · obtain ⟨d, hd⟩ := Option.ne_none_iff_exists'.1 hrow
    exact cycle_wrap_fsm hrun hd
  · obtain ⟨⟨-, hbad⟩, -⟩ := (step_halts_addressRange_iff hrun op pc addr).1 ⟨_, step_eq_cycle hrun, h⟩
    have hlow := le_firstBadPc (s.mem.load s.pc)
    omega

/-- Settles O42: by induction on the length, each step of the run being a cycle of the stages. -/
theorem boundedRunIsTheHostRun : Obligations.BoundedRunIsTheHostRun := by
  intro n
  induction n with
  | zero =>
    intro s t h
    exact Host.Outcome.next.inj h
  | succ n ih =>
    intro s t h
    obtain ⟨u, hstep, hrun⟩ := core_run_succ_eq_next.1 h
    obtain rfl : u = cycle .fault s :=
      Host.Outcome.next.inj (hstep.symm.trans (step_eq_cycle (step_eq_next hstep).1))
    exact ih _ t hrun

/-- Settles O43: PC, memory and the FSM state are what `SameControl` compares, and a run keeps them alike. -/
theorem dataNeverSteersControl : Obligations.DataNeverSteersControl := by
  intro n s s' t hpc hmem hfsm hrun
  obtain ⟨t', hrun', hpc', hmem', hfsm'⟩ := SameControl.run ⟨hpc, hmem, hfsm⟩ hrun
  exact ⟨t', hrun', hpc'.symm, hmem'.symm, hfsm'.symm⟩

end Sys2Proof.Proofs

/-! SUPPORT. Bytes placed at PC (R42, R45), runs over zero memory (R85, R86), and the host's run (R85, R118). -/

namespace Sys2Proof

/-- What decodes with both candidates present decodes alike with any candidates that agree where the instruction consumes
them (R61, U8). -/
theorem decode_of_candidates {op b1 b2 : Byte} {c1 c2 : Option Byte} {i : Instr}
    (h : decode op (some b1) (some b2) = .ok i) (hc : i.width = 2 → c1 = some b1 ∧ c2 = some b2) :
    decode op c1 c2 = .ok i := by
  obtain ⟨d, hd, -, rfl⟩ := Machine.decode_eq_ok h
  obtain ⟨rfl, rfl⟩ | ⟨rfl, rfl⟩ | ⟨rfl, rfl⟩ | ⟨rfl, rfl⟩ := lookup_eq_some.1 hd
  · exact decode_of_lookup_some hd (absentOperand_zero c1 c2)
  · obtain ⟨rfl, rfl⟩ := hc rfl
    exact h
  · exact decode_of_lookup_some hd (absentOperand_zero c1 c2)
  · obtain ⟨rfl, rfl⟩ := hc rfl
    exact h

/-- The host's question answers as the decoder does on the word's three bytes. -/
theorem decodeTableWord_eq_some {nbits w : Nat} {i : Instr} (h : decodeTableWord nbits w = some i) :
    decode (tableByte nbits w 0) (some (tableByte nbits w 1)) (some (tableByte nbits w 2)) = .ok i := by
  unfold decodeTableWord at h
  split at h
  · next hd =>
    cases h
    exact hd
  · cases h

namespace Machine

open Sys2Proof.Safety

/-! Bytes placed at PC. -/

/-- A store at PC leaves the candidate bytes as they were (R42, R67). -/
theorem candidate_store_pc {s : State} (hwf : s.mem.wf = true) (v : Byte) {k : Nat} (hk : 1 ≤ k) :
    candidate .fault (s.store s.pc v) k = candidate .fault s k := by
  rw [candidate_fault_eq_read, candidate_fault_eq_read, State.store_pc, State.store_mem, Memory.store,
    Memory.read_write hwf, if_neg (show s.pc.toNat + k ≠ s.pc.toNat by omega)]

/-- After a store at PC the decoder is asked about the stored byte and the candidates as they were (R42, R74). -/
theorem decode_store_pc {s : State} (hwf : s.mem.wf = true) (v : Byte) :
    decode ((s.store s.pc v).mem.load (s.store s.pc v).pc) (candidate Config.pcOverflow (s.store s.pc v) 1)
        (candidate Config.pcOverflow (s.store s.pc v) 2) =
      decode v (candidate Config.pcOverflow s 1) (candidate Config.pcOverflow s 2) := by
  have hop : (s.store s.pc v).mem.load (s.store s.pc v).pc = v := (Memory.load_store hwf s.pc v s.pc).trans (if_pos rfl)
  have h1 : candidate Config.pcOverflow (s.store s.pc v) 1 = candidate Config.pcOverflow s 1 :=
    candidate_store_pc hwf v (by decide)
  have h2 : candidate Config.pcOverflow (s.store s.pc v) 2 = candidate Config.pcOverflow s 2 :=
    candidate_store_pc hwf v (by decide)
  rw [hop, h1, h2]

/-- Fetch and decode answer the instruction that the decoder does (R74, R75): `fetchDecode_eq_ok`'s converse. -/
theorem fetchDecode_of_decode_ok {s : State} {i : Instr}
    (h : decode (s.mem.load s.pc) (candidate Config.pcOverflow s 1) (candidate Config.pcOverflow s 2) = .ok i) :
    fetchDecode s = .ok i := by
  rw [fetchDecode, h]

/-- Fetch and decode answer the error of the decoder's refusal (R75, R76). -/
theorem fetchDecode_of_decode_error {s : State} {e : DecodeError}
    (h : decode (s.mem.load s.pc) (candidate Config.pcOverflow s 1) (candidate Config.pcOverflow s 2) = .error e) :
    fetchDecode s = .error (errorOfDecode s.pc e) := by
  rw [fetchDecode, h]

@[simp] theorem placeByte_pc (s : State) (k : Nat) (b : Byte) : (placeByte s k b).pc = s.pc := by
  unfold placeByte
  split <;> rfl

@[simp] theorem placeByte_fsm (s : State) (k : Nat) (b : Byte) : (placeByte s k b).fsm = s.fsm := by
  unfold placeByte
  split <;> rfl

/-- A placed byte stands at `PC + k`, and every other address reads as before (R42). -/
theorem placeByte_load {s : State} (hwf : s.mem.wf = true) (k : Nat) (b : Byte) (x : Word) :
    (placeByte s k b).mem.load x = if x.toNat = s.pc.toNat + k then b else s.mem.load x := by
  have hx := x.isLt
  unfold placeByte
  split
  · next h =>
    have haddr : x = trunc16 (s.pc.toNat + k) ↔ x.toNat = s.pc.toNat + k := by
      rw [← BitVec.toNat_inj, toNat_trunc16_of_le h]
    simp only [State.store_mem, Memory.load_store hwf, haddr]
  · next h =>
    rw [Config.topAddr] at h
    rw [if_neg (by omega)]

@[simp] theorem withFetchWord_pc (s : State) (nbits w : Nat) : (s.withFetchWord nbits w).pc = s.pc := by
  simp [State.withFetchWord, placeWord]

@[simp] theorem withFetchWord_fsm (s : State) (nbits w : Nat) : (s.withFetchWord nbits w).fsm = s.fsm := by
  simp [State.withFetchWord, placeWord]

/-- Byte `k` of a placed word stands at `PC + k` where that address exists (R45). -/
theorem withFetchWord_load {s : State} (hwf : s.mem.wf = true) (nbits w : Nat) {k : Nat} (hk : k < 3) {x : Word}
    (hx : x.toNat = s.pc.toNat + k) : (s.withFetchWord nbits w).mem.load x = tableByte nbits w k := by
  rw [State.withFetchWord, placeWord, placeByte_load (placeByte_wf _ _ (placeByte_wf _ _ hwf)),
    placeByte_load (placeByte_wf _ _ hwf), placeByte_load hwf, placeByte_pc, placeByte_pc, hx]
  obtain rfl | rfl | rfl : k = 0 ∨ k = 1 ∨ k = 2 := by omega
  · simp
  · simp
  · simp

theorem withFetchWord_load_pc {s : State} (hwf : s.mem.wf = true) (nbits w : Nat) :
    (s.withFetchWord nbits w).mem.load s.pc = tableByte nbits w 0 :=
  withFetchWord_load hwf nbits w (by decide) rfl

theorem withFetchWord_candidate {s : State} (hwf : s.mem.wf = true) (nbits w : Nat) {k : Nat} (hk : k < 3)
    (hfit : s.pc.toNat + k ≤ 0xFFFF) : candidate .fault (s.withFetchWord nbits w) k = some (tableByte nbits w k) := by
  rw [candidate_fault_of_le (by rwa [withFetchWord_pc]), withFetchWord_pc,
    withFetchWord_load hwf nbits w hk (toNat_trunc16_of_le hfit)]

/-- A word placed where its instruction fits is what fetch and decode answer there (R45, R61). -/
theorem decode_withFetchWord {s : State} {nbits w : Nat} {i : Instr} (hwf : s.mem.wf = true)
    (hdec : decodeTableWord nbits w = some i) (hfit : s.pc.toNat + i.width ≤ 0xFFFF) :
    decode ((s.withFetchWord nbits w).mem.load (s.withFetchWord nbits w).pc)
      (candidate .fault (s.withFetchWord nbits w) 1) (candidate .fault (s.withFetchWord nbits w) 2) = .ok i := by
  rw [withFetchWord_pc, withFetchWord_load_pc hwf]
  refine decode_of_candidates (decodeTableWord_eq_some hdec) fun hw => ?_
  exact ⟨withFetchWord_candidate hwf _ _ (by decide) (by omega), withFetchWord_candidate hwf _ _ (by decide) (by omega)⟩

/-- An instruction needs at least its own operand bytes (R76). -/
theorem width_le_reach (i : Instr) : i.width ≤ reach i := by
  cases i <;> simp [Instr.width, reach]

/-- In RUNNING, at a PC where the row's instruction does not fit, a step raises what the instruction itself raises there:
AddressRangeError at 0x10000 (R76, R97). -/
theorem step_eq_exec_of_past_top {s : State} {i : Instr} (hrun : s.fsm = .running)
    (hrow : lookup (s.mem.load s.pc) = some i.descriptor) (hpast : 0xFFFF < s.pc.toNat + reach i) :
    step s = exec i s := by
  have hop : i.descriptor.opcode = s.mem.load s.pc := lookup_opcode hrow
  have hreach := firstBadPc_add_reach i
  rw [hop] at hreach
  obtain ⟨hlt, -⟩ | ⟨-, hstep⟩ := step_of_row hrun hrow
  · omega
  · rw [hstep, exec_of_past_top hpast, hop]

/-! Zero memory. -/

/-- The last cycle of a run taken apart (R85). -/
theorem cycles_succ (p : PcOverflow) (s : State) (n : Nat) : cycles p s (n + 1) = cycle p (cycles p s n) := by
  induction n generalizing s with
  | zero => rfl
  | succ n ih => rw [cycles, ih, cycles]

/-- Every byte of memory from PC upwards is a NOP's (R86). -/
def ZerosFromPc (s : State) : Prop := ∀ addr : Word, s.pc.toNat ≤ addr.toNat → s.mem.load addr = 0x00#8

/-- In RUNNING, a cycle on a zero byte is the NOP (R75, R86). -/
theorem cycle_of_zero {s : State} (hrun : s.fsm = .running) (hzero : s.mem.load s.pc = 0x00#8) :
    exec .nop s = .next (cycle .fault s) := by
  rw [← step_eq_cycle hrun]
  refine (step_of_decode_ok hrun ?_).symm
  rw [hzero]
  exact decode_of_lookup_some (d := descNop) rfl (absentOperand_zero _ _)

/-- Over zeros, `n` cycles that stay below the top are `n` NOPs (R85, R86). -/
theorem cycles_of_zeros {s : State} {n : Nat} (hrun : s.fsm = .running) (hzero : ZerosFromPc s)
    (hle : s.pc.toNat + n ≤ 0xFFFF) : cycles .fault s n = s.setPC (trunc16 (s.pc.toNat + n)) := by
  induction n with
  | zero => simp [cycles, trunc16]
  | succ n ih =>
    have hpc : (trunc16 (s.pc.toNat + n)).toNat = s.pc.toNat + n := toNat_trunc16_of_le (by omega)
    have hnop := cycle_of_zero (s := s.setPC (trunc16 (s.pc.toNat + n))) hrun (hzero _ (by rw [State.setPC_pc]; omega))
    rw [exec_of_fits (by rw [State.setPC_pc, hpc, reach]; omega), committed, State.setPC_pc, hpc] at hnop
    rw [cycles_succ, ih (by omega), ← Host.Outcome.next.inj hnop]
    rfl

/-- Over zeros, the cycle that follows the last address raises AddressRangeError there (R86, R97). -/
theorem cycles_of_zeros_past_top {s : State} {n : Nat} (hrun : s.fsm = .running) (hzero : ZerosFromPc s)
    (hn : s.pc.toNat + n = 0x10000) :
    cycles .fault s n = (s.setPC 0xFFFF#16).raise (.addressRange 0x00#8 0xFFFF#16 0x10000) := by
  have hpc := s.pc.isLt
  obtain ⟨m, rfl⟩ : ∃ m, n = m + 1 := ⟨n - 1, by omega⟩
  have htop : s.pc.toNat + m = 0xFFFF := by omega
  have hnop := cycle_of_zero (s := s.setPC 0xFFFF#16) hrun (hzero _ (by rw [State.setPC_pc]; bv_omega))
  rw [exec_of_past_top (by rw [State.setPC_pc, reach]; decide)] at hnop
  rw [cycles_succ, cycles_of_zeros hrun hzero (by omega), htop]
  exact (Host.Outcome.next.inj hnop).symm

/-- A booted block whose image ends below the entry point sees zeros from there on (R116, R117). -/
theorem zerosFromPc_of_boot {bytes : List Byte} {s : State} (hboot : boot (some bytes) = .ok s)
    (hlen : bytes.length < 0x0101) : ZerosFromPc s := by
  intro addr haddr
  have hentry : (0x0100#16).toNat = 0x0100 := rfl
  rw [pc_of_boot hboot, hentry] at haddr
  rw [load_of_boot hboot]
  exact List.getD_eq_default _ _ (by omega)

/-! The host's run. -/

/-- `n` steps of a run are `n` steps of the block with `n` added to the count (R85, R118). -/
theorem Run.advance_eq_next {n : Nat} {r u : Run} (h : Run.advance n r = .next u) :
    u.steps = r.steps + n ∧ Sys2Proof.core.run n r.state = .next u.state := by
  induction n generalizing r with
  | zero =>
    cases h
    exact ⟨rfl, rfl⟩
  | succ n ih =>
    rw [Run.advance] at h
    split at h
    · next v hv =>
      obtain ⟨hstep, hcount⟩ := Run.step_eq_next hv
      obtain ⟨hsteps, hrun⟩ := ih h
      exact ⟨by omega, core_run_succ_eq_next.2 ⟨_, hstep, hrun⟩⟩
    · cases h
    · cases h

end Machine

end Sys2Proof

/-! PROOFS. The last statements: the next fetch after a store or a placing, zero memory, reset at the ends of a run. -/

namespace Sys2Proof.Proofs

open Sys2Proof.Machine Sys2Proof.Safety

/-- Settles O14: the byte at PC reads back, and the candidates stand at other addresses; the fetch then answers as the
decoder does. -/
theorem storeIsSeenByNextFetch : Obligations.StoreIsSeenByNextFetch := by
  intro s v hwf
  have hstore := decode_store_pc hwf v
  cases hdec : decode v (candidate Config.pcOverflow s 1) (candidate Config.pcOverflow s 2) with
  | ok i => exact fetchDecode_of_decode_ok (hstore.trans hdec)
  | error e => exact fetchDecode_of_decode_error (hstore.trans hdec)

/-- Settles O45: where the instruction fits, it is what decodes; where it does not, the step and the instruction raise the
same error. -/
theorem placedWordIsRunNext : Obligations.PlacedWordIsRunNext := by
  intro s nbits w i hwf hrun hdec
  have hrun' := (withFetchWord_fsm s nbits w).trans hrun
  refine ⟨fun hfit => ?_, ?_⟩
  · exact fetchDecode_of_decode_ok (decode_withFetchWord hwf hdec (of_decide_eq_true hfit))
  · by_cases hfit : s.pc.toNat + i.width ≤ 0xFFFF
    · exact step_of_decode_ok hrun' (decode_withFetchWord hwf hdec hfit)
    · refine step_eq_exec_of_past_top hrun' ?_ ?_
      · rw [withFetchWord_pc, withFetchWord_load_pc hwf]
        exact decode_descriptor (decodeTableWord_eq_some hdec)
      · have hwidth := width_le_reach i
        rw [withFetchWord_pc]
        omega

/-- Settles O44: runs over zeros, by induction on their length; below the entry point a booted block's memory is such. -/
theorem zeroMemoryRunsNopsToTheTop : Obligations.ZeroMemoryRunsNopsToTheTop := by
  refine ⟨fun s n hrun hzero => ⟨cycles_of_zeros hrun hzero, cycles_of_zeros_past_top hrun hzero⟩,
    fun bytes s hlen hboot => ?_⟩
  have hrun := fsm_of_boot hboot
  have hzero := zerosFromPc_of_boot hboot hlen
  have hpc : s.pc.toNat = 0x0100 := congrArg BitVec.toNat (pc_of_boot hboot)
  have hnops : ∀ n, n ≤ 0xFEFF → cycles Config.pcOverflow s n = s.setPC (trunc16 (0x0100 + n)) := fun n hn => by
    rw [← hpc]
    exact cycles_of_zeros hrun hzero (by omega)
  refine ⟨fun k hk => ?_, fun n => ⟨hnops n, fun hn => ?_⟩⟩
  · rw [hnops k hk, State.setPC_fsm, hrun]
  · rw [Config.pcOverflow, cycles_of_zeros_past_top hrun hzero (by omega), State.raise_fsm]

/-- Settles O50: the count is `advance_eq_next`'s, and after the run memory is still the booted one. -/
theorem resetOnlyAtTheEndsOfARun : Obligations.ResetOnlyAtTheEndsOfARun := by
  intro bytes s n r hboot hadv
  obtain ⟨hsteps, hrun⟩ := Run.advance_eq_next hadv
  rw [Nat.zero_add] at hsteps
  refine ⟨hsteps, hrun, fun h => ?_, fun hn hhalt => ?_⟩
  · rw [← hsteps] at h
    rw [Run.resetEvent_eq_some.2 ⟨h, rfl⟩, run_keeps_mem hrun, ← eq_created_of_boot hboot]
  · rw [← hsteps] at hn
    exact Run.resetEvent_eq_none hn hhalt

end Sys2Proof.Proofs
